-- ==== Sys2Proof/Word.lean ====
section
/-! DEFINITION. The two word types of the CORE (spec/00_scope.md R7, R8). -/

namespace Sys2Proof

/-- A register value, memory byte, operand byte or immediate: 8 bits, unsigned (R7 XLEN, R8). -/
abbrev Byte := BitVec 8

/-- The program counter's word: 9 bits, so that 256, one past the last address, is a value of it
(R7, R25, decision D3). -/
abbrev PcWord := BitVec 9

end Sys2Proof
end

