-- ==== Sys2Proof/Config.lean ====
section
/-! DEFINITION. What is fixed for one machine (spec/00_scope.md R7) and the type of its one configurable table, OPCODE
(spec/30_encoding.md R64, decision D1). The default byte values of OPCODE stand in Decode.lean. INIT_REGS and INIT_MEM, the
open parameters (decisions D4, D5), are arguments of Machine.State.construct. The spec leaves no value open after an
instruction, so this file declares no free value. -/

namespace Sys2Proof

namespace Config

/-- MEMSIZE: bytes of memory, addresses 0 to 255 (R7, R30). -/
abbrev memSize : Nat := 256

/-- NREG: number of general registers (R7, R20). -/
abbrev numRegs : Nat := 8

/-- LOAD_BASE: the address the program image is written from (R7, R34). -/
abbrev loadBase : Nat := 0

/-- SP_INDEX: register 7 is the stack pointer (R7, R23). -/
abbrev spIndex : Fin numRegs := 7

end Config

/-- The twelve mnemonics of the instruction set (R2), in the order of R64's table. -/
inductive Mnemonic where
  | hlt | ldi | prn | push | pop | cmp | jmp | jeq | jne | add | sub | mul
  deriving DecidableEq, Repr

/-- All mnemonics, each once. -/
def Mnemonic.all : List Mnemonic :=
  [.hlt, .ldi, .prn, .push, .pop, .cmp, .jmp, .jeq, .jne, .add, .sub, .mul]

/-- How many operand bytes the format of a mnemonic has (R63): F0 none, F1R one, F2RR and F2RI two. -/
def Mnemonic.operandCount : Mnemonic → Nat
  | .hlt => 0
  | .prn | .push | .pop | .jmp | .jeq | .jne => 1
  | .ldi | .cmp | .add | .sub | .mul => 2

/-- The configuration table OPCODE: the opcode byte of each mnemonic (R64). -/
abbrev OpcodeTable := Mnemonic → Byte

end Sys2Proof
end

