-- ==== Sys2Proof/Machine/ResetValues.lean ====
section
/-! DEFINITION. The values State.reset and an unlisted memory byte take. -/

namespace Sys2Proof.Machine

/-- SP_RESET (R7, R23). -/
def spReset : Byte := 0xF4#8

/-- The program counter at construction: the reset vector is address 0 (R25, R46, R200). -/
def pcReset : PcWord := 0#9

/-- FL at construction (R26). -/
def flReset : Byte := 0x00#8

/-- What each of x[0] to x[6] holds in `State.reset`. DESIGN CHOICE: the spec leaves INIT_REGS open (R20, D4). UNSAFE, since
a proof from `State.reset` could lean on it (log entry 2). -/
def initReg : Byte := 0x00#8

/-- What a memory byte that the list does not name reads as. DESIGN CHOICE: the spec leaves INIT_MEM open (R30, D5). UNSAFE
for claims from `State.reset` alone; every INIT_MEM is a list, so claims over all states cover it (log entry 3). -/
def unlistedByte : Byte := 0x00#8

end Sys2Proof.Machine
end

