-- ==== Sys2Proof/Machine/State.lean ====
section
/-! DEFINITION. The state of the CORE, the tuple (mem, x, pc, FL, run, err, out) of spec/10_state.md, its construction (R200)
and the two reason types. -/

namespace Sys2Proof.Machine

/-- The memory (R30): cells in one canonical form, addresses strictly rising, no cell holding what an unlisted address reads
as. `Memory.wf` (Ops.lean) states the form. -/
abbrev Memory := List Host.Cell

/-- The run state (R27). -/
inductive RunState where
  | running
  | halted
  deriving DecidableEq, Repr

/-- The two error kinds (R180). -/
inductive ErrorKind where
  /-- A memory address of 256 or more, or a register index of 8 or more (R181). -/
  | outOfBounds
  /-- The ALU given a tag outside ADD, SUB, MUL and CMP (R182). -/
  | unsupportedOperation
  deriving DecidableEq, Repr

/-- The error status `err` (R28): `none` while no fault has occurred. -/
abbrev ErrorStatus := Option ErrorKind

/-- The whole state of the CORE (spec/10_state.md). -/
structure State where
  /-- 256 bytes of memory (R30). -/
  mem : Memory
  /-- x[0] to x[7]; x[7] is SP (R20, R23). -/
  regs : Vector Byte Config.numRegs
  /-- The program counter (R25). -/
  pc : PcWord
  /-- The flags register FL: bit 0 E, bit 1 G, bit 2 L (R26). -/
  fl : Byte
  /-- Running or Halted (R27). -/
  run : RunState
  /-- The error status (R28). -/
  err : ErrorStatus
  /-- The bytes PRN has emitted, the oldest first (R29). -/
  out : List Byte
  deriving DecidableEq, Repr

/-- The reasons for which a step could end outside every state. -/
inductive Fault where
  /-- R182 lets a model keep this as a fault no step produces. Nobody raises it: an UnsupportedOperation that were raised
  would take R186's entry, a next state. Safe. -/
  | unsupportedOperation
  deriving DecidableEq, Repr

/-- The reasons for which a step has no meaning. -/
inductive Refusal where
  /-- An instruction whose arm of exec has no meaning yet; no arm of this model raises it. Safe. -/
  | notModelled (mnemonic : String)
  /-- Raised by `stepWith` where the fetched bytes hold no whole instruction. No step raises it under an OPCODE table that
  meets R64's constraint (b), the default one included (R84). Safe. -/
  | truncatedInstruction
  deriving DecidableEq, Repr

/-- Construction (R200) before the load: INIT_REGS and INIT_MEM are arguments (D4, D5). Any contents of the 256 bytes are a
`Memory`, so no INIT_MEM is left out. -/
def State.construct (initRegs : Vector Byte 7) (initMem : Memory) : State where
  mem := initMem
  regs := initRegs.push spReset
  pc := pcReset
  fl := flReset
  run := .running
  err := none
  out := []

/-- The machine right after reset: construction with nothing loaded (the empty image, R201). The values of x[0] to x[6] and
of the memory bytes are DESIGN CHOICE (log entries 2 and 3); all others are the spec's. -/
def State.reset : State :=
  State.construct (Vector.replicate 7 initReg) []

end Sys2Proof.Machine
end

