-- ==== Sys2Proof/Machine/Ops.lean ====
section
/-! DEFINITION. The named operations of spec/00_scope.md R9 over memory, registers, program counter, flags, run state and
output, and taking an error (spec/40_sequencer.md R91). -/

namespace Sys2Proof.Machine

/-! ### Numbers (R8) -/

/-- `wrap8(v) = v mod 256`, the non-negative residue (R8). -/
def wrap8 (v : Int) : Byte := BitVec.ofInt 8 v

/-- `zext_9(v)` (R8, R62). -/
def zext9 (v : Byte) : PcWord := v.setWidth 9

/-- The codes of the error status (R28, R180, D13). -/
def ErrorStatus.code : ErrorStatus → Nat
  | none => 0
  | some .outOfBounds => 1
  | some .unsupportedOperation => 2

/-! ### Memory (R40 to R49) -/

/-- The byte at an address. -/
def Memory.read (m : Memory) (a : Nat) : Byte :=
  match m with
  | [] => unlistedByte
  | (b, v) :: rest => if b = a then v else Memory.read rest a

/-- The memory without the cell of an address. -/
def Memory.erase (m : Memory) (a : Nat) : Memory :=
  m.filter fun c => c.1 != a

/-- The memory with a cell put before the first higher address. -/
def Memory.insert (m : Memory) (a : Nat) (v : Byte) : Memory :=
  match m with
  | [] => [(a, v)]
  | (b, w) :: rest => if a < b then (a, v) :: (b, w) :: rest else (b, w) :: Memory.insert rest a v

/-- Writing a byte; writing what an unlisted address reads as removes the cell, so equal memories are equal lists. -/
def Memory.write (m : Memory) (a : Nat) (v : Byte) : Memory :=
  if v = unlistedByte then m.erase a else (m.erase a).insert a v

/-- Writing bytes at consecutive rising addresses (R34). -/
def Memory.writeBytes (m : Memory) (a : Nat) : List Byte → Memory
  | [] => m
  | v :: rest => Memory.writeBytes (m.write a v) (a + 1) rest

/-- The canonical form: addresses strictly rising, each below 256, no cell equal to an unlisted byte. -/
def Memory.wf (m : Memory) : Bool :=
  decide (m.Pairwise fun c d => c.1 < d.1) && m.all fun c => decide (c.1 < Config.memSize) && c.2 != unlistedByte

/-- `MemRead(a, 1)` (R9, R41): an address of 256 or more raises OutOfBounds. -/
def State.memRead (s : State) (a : Nat) : Except ErrorKind Byte :=
  if a < Config.memSize then .ok (s.mem.read a) else .error .outOfBounds

/-- The state with another memory. -/
def State.setMem (s : State) (m : Memory) : State := { s with mem := m }

/-- `MemWrite(a, 1, v)` (R9, R41). -/
def State.memWrite (s : State) (a : Nat) (v : Byte) : Except ErrorKind State :=
  if a < Config.memSize then .ok (s.setMem (s.mem.write a v)) else .error .outOfBounds

/-- `MemRead` of `n` bytes in rising order; the first address out of bounds raises (R82). -/
def State.memReadMany (s : State) (a : Nat) : Nat → Except ErrorKind (List Byte)
  | 0 => .ok []
  | n + 1 => do
    let b ← s.memRead a
    let rest ← State.memReadMany s (a + 1) n
    pure (b :: rest)

/-! ### Registers, program counter, flags, run state, output (R9, R20 to R29) -/

/-- `x[i]` for a valid index (R9). -/
def State.reg (s : State) (i : Fin Config.numRegs) : Byte := s.regs[i]

/-- `x[i] <- v` for a valid index (R9, R21). -/
def State.setReg (s : State) (i : Fin Config.numRegs) (v : Byte) : State :=
  { s with regs := s.regs.set i v }

/-- `SP`, another name for x[7] (R9, R23). -/
def State.sp (s : State) : Byte := s.reg Config.spIndex

/-- `SP <- v`. -/
def State.setSp (s : State) (v : Byte) : State := s.setReg Config.spIndex v

/-- `pc <- target` (R9). -/
def State.setPc (s : State) (target : PcWord) : State := { s with pc := target }

/-- The auto-advance `pc <- pc + n` (R87). -/
def State.advance (s : State) (n : Nat) : State := s.setPc (s.pc + BitVec.ofNat 9 n)

/-- `FL <- v` (R9). -/
def State.setFl (s : State) (v : Byte) : State := { s with fl := v }

/-- `emit(v)`: one OUT event with payload `v`, appended to the output stream (R9, R29, R35). The sink takes every event. -/
def State.emit (s : State) (v : Byte) : State := { s with out := s.out ++ [v] }

/-- `halt` (R9, R27). -/
def State.halt (s : State) : State := { s with run := .halted }

/-! ### Errors (R91, R186) -/

/-- Taking an error, the CORE's one exception entry: the run state becomes Halted, `err` takes the kind, and everything else
keeps the value it had at the start of the step. Nothing vectors, nothing is saved, and nothing returns (R91, R186, R187). -/
def State.takeError (s : State) (e : ErrorKind) : State :=
  { s with run := .halted, err := some e }

/-- The end of a step: the handler's state, or the entry of the error it raised, taken in the state the step began in. -/
def State.finish (s : State) : Except ErrorKind State → Host.Outcome State Fault Refusal
  | .ok t => .next t
  | .error e => .next (s.takeError e)

end Sys2Proof.Machine
end

