-- ==== Sys2Proof/Machine/Flags.lean ====
section
/-! DEFINITION. The flags register FL (spec/10_state.md R26), the value CMP gives it (spec/43_compare_branch.md R140) and the
condition dispatcher (R141). -/

namespace Sys2Proof.Machine

/-- FL after a compare that found equal: bit 0. -/
def flEqual : Byte := 0b00000001#8

/-- FL after a compare that found greater: bit 1. -/
def flGreater : Byte := 0b00000010#8

/-- FL after a compare that found less: bit 2. -/
def flLess : Byte := 0b00000100#8

/-- The new flags value of an unsigned compare (R140, R160): exactly one bit is set and bits 7:3 are 0. -/
def compareFlags (a b : Byte) : Byte :=
  if a = b then flEqual else if b.toNat < a.toNat then flGreater else flLess

/-- `is_equal() = FL[0]` (R26). -/
def State.isEqual (s : State) : Bool := s.fl.getLsbD 0

/-- `is_greater() = FL[1]` (R26); no instruction reads it (R141). -/
def State.isGreater (s : State) : Bool := s.fl.getLsbD 1

/-- `is_less() = FL[2]` (R26); no instruction reads it (R141). -/
def State.isLess (s : State) : Bool := s.fl.getLsbD 2

/-- `taken(m)` (R141): JMP always, JEQ where E is set, JNE where E is clear, no other mnemonic. -/
def State.taken (s : State) : Mnemonic → Bool
  | .jmp => true
  | .jeq => s.isEqual
  | .jne => !s.isEqual
  | .hlt | .ldi | .prn | .push | .pop | .cmp | .add | .sub | .mul => false

end Sys2Proof.Machine
end

