-- ==== Sys2Proof/Syntax.lean ====
section
/-! DEFINITION. The instructions: one constructor per row of spec/opcode_table.json. -/

namespace Sys2Proof

/-- An instruction with its operand bytes as they are fetched (R11, R62). A register operand is the WHOLE byte: 8 to 255 are
operands the hardware executes, by raising OutOfBounds (R62, R85). -/
inductive Instr where
  /-- HLT (R100), format F0. -/
  | hlt
  /-- LDI rA, imm8 (R101), format F2RI. -/
  | ldi (rA imm8 : Byte)
  /-- PRN rA (R102), format F1R. -/
  | prn (rA : Byte)
  /-- PUSH rA (R121), format F1R. -/
  | push (rA : Byte)
  /-- POP rA (R122), format F1R. -/
  | pop (rA : Byte)
  /-- CMP rA, rB (R140), format F2RR. -/
  | cmp (rA rB : Byte)
  /-- JMP rA (R142), format F1R. -/
  | jmp (rA : Byte)
  /-- JEQ rA (R143), format F1R. -/
  | jeq (rA : Byte)
  /-- JNE rA (R144), format F1R. -/
  | jne (rA : Byte)
  /-- ADD rA, rB (R162), format F2RR. -/
  | add (rA rB : Byte)
  /-- SUB rA, rB (R163), format F2RR. -/
  | sub (rA rB : Byte)
  /-- MUL rA, rB (R164), format F2RR. -/
  | mul (rA rB : Byte)
  /-- The default arm of decode: an opcode byte that no entry of OPCODE matches (R66, R90). -/
  | unknown (op : Byte)
  deriving DecidableEq, Repr

/-- The mnemonic of an instruction; the default arm has none (R65). -/
def Instr.mnemonic : Instr → Option Mnemonic
  | .hlt => some .hlt
  | .ldi _ _ => some .ldi
  | .prn _ => some .prn
  | .push _ => some .push
  | .pop _ => some .pop
  | .cmp _ _ => some .cmp
  | .jmp _ => some .jmp
  | .jeq _ => some .jeq
  | .jne _ => some .jne
  | .add _ _ => some .add
  | .sub _ _ => some .sub
  | .mul _ _ => some .mul
  | .unknown _ => none

/-- The operand bytes, in the order they lie in memory (R63, R71). -/
def Instr.operands : Instr → List Byte
  | .hlt | .unknown _ => []
  | .prn rA | .push rA | .pop rA | .jmp rA | .jeq rA | .jne rA => [rA]
  | .ldi rA imm8 => [rA, imm8]
  | .cmp rA rB | .add rA rB | .sub rA rB | .mul rA rB => [rA, rB]

/-- The operand bytes that the format marks as registers, in the order rA, rB in which R85 checks them. -/
def Instr.registerOperands : Instr → List Byte
  | .hlt | .unknown _ => []
  | .ldi rA _ => [rA]
  | .prn rA | .push rA | .pop rA | .jmp rA | .jeq rA | .jne rA => [rA]
  | .cmp rA rB | .add rA rB | .sub rA rB | .mul rA rB => [rA, rB]

end Sys2Proof
end

