-- ==== Sys2Proof/WellFormed.lean ====
section
/-! DEFINITION. The one check an instruction needs to stand for bytes: an unknown opcode is a byte that no mnemonic has
(R65, R66). Operand bytes need none: every value of a byte is one the hardware executes (R62, R67). -/

namespace Sys2Proof

/-- Under the table `t`, the instruction is one that decoding can answer. -/
def Instr.wfFor (t : OpcodeTable) : Instr → Bool
  | .unknown op => Mnemonic.all.all fun m => t m != op
  | .hlt | .ldi _ _ | .prn _ | .push _ | .pop _ | .cmp _ _ | .jmp _ | .jeq _ | .jne _ | .add _ _ | .sub _ _ | .mul _ _ => true

end Sys2Proof
end

