-- ==== Sys2Proof/Decode.lean ====
section
/-! DEFINITION. The OPCODE table, the decoder and the encoder (spec/30_encoding.md R60 to R71). Decoder and encoder take the
table as an argument (decision D1); `decode` and `encode` are theirs at the default table. -/

namespace Sys2Proof

/-- The default OPCODE table (R64). PRESUMED: the byte values are the LS-8 family's, from general knowledge (G3); the source
gives none. UNSAFE for claims about bytes; exact for claims over every table (log entry 1). -/
def opcode : OpcodeTable
  | .hlt => 0x01#8
  | .ldi => 0x82#8
  | .prn => 0x47#8
  | .push => 0x45#8
  | .pop => 0x46#8
  | .cmp => 0xA7#8
  | .jmp => 0x54#8
  | .jeq => 0x55#8
  | .jne => 0x56#8
  | .add => 0xA0#8
  | .sub => 0xA1#8
  | .mul => 0xA2#8

/-- `N = op[7:6]`: how many operand bytes follow an opcode byte (R60, R61). -/
def opcodeOperands (op : Byte) : Nat :=
  ((op >>> 6) &&& 0b11#8).toNat

/-- The two constraints on OPCODE (R64): (a) the twelve values are distinct; (b) bits 7:6 of each are its operand count. -/
def OpcodeTable.Ok (t : OpcodeTable) : Prop :=
  (∀ m m', t m = t m' → m = m') ∧ ∀ m, opcodeOperands (t m) = m.operandCount

/-- Why a list of bytes holds no instruction. Safe: the sequencer always hands over enough bytes (R82, R84). -/
inductive DecodeError where
  /-- The list is empty: there is no opcode byte. -/
  | noOpcode
  /-- The list ends before the last operand byte of this mnemonic. -/
  | missingOperand (m : Mnemonic)
  deriving DecidableEq, Repr

/-- What decoding answers: the instruction and the bytes after it, or why there is none. -/
abbrev DecodeAnswer := Except DecodeError (Instr × List Byte)

/-- Decoding an opcode byte: an exact match of the whole byte; `none` is R65's Unknown. -/
def decodeOpcodeWith (t : OpcodeTable) (op : Byte) : Option Mnemonic :=
  Mnemonic.all.find? fun m => t m == op

/-- Format F1R: one operand byte (R63). -/
def takeOne (m : Mnemonic) (make : Byte → Instr) : List Byte → DecodeAnswer
  | a :: rest => .ok (make a, rest)
  | [] => .error (.missingOperand m)

/-- Formats F2RR and F2RI: two operand bytes (R63). -/
def takeTwo (m : Mnemonic) (make : Byte → Byte → Instr) : List Byte → DecodeAnswer
  | a :: b :: rest => .ok (make a b, rest)
  | [] | [_] => .error (.missingOperand m)

/-- The operand bytes of a mnemonic, by its format (R63, R84). -/
def decodeOperands (bytes : List Byte) : Mnemonic → DecodeAnswer
  | .hlt => .ok (.hlt, bytes)
  | .ldi => takeTwo .ldi .ldi bytes
  | .prn => takeOne .prn .prn bytes
  | .push => takeOne .push .push bytes
  | .pop => takeOne .pop .pop bytes
  | .cmp => takeTwo .cmp .cmp bytes
  | .jmp => takeOne .jmp .jmp bytes
  | .jeq => takeOne .jeq .jeq bytes
  | .jne => takeOne .jne .jne bytes
  | .add => takeTwo .add .add bytes
  | .sub => takeTwo .sub .sub bytes
  | .mul => takeTwo .mul .mul bytes

/-- The decoder (R65, R83). An unknown opcode is one byte: the bytes after it are decoded as instructions in their own
right (R66), so they are left in the rest. -/
def decodeWith (t : OpcodeTable) : List Byte → DecodeAnswer
  | [] => .error .noOpcode
  | op :: rest =>
    match decodeOpcodeWith t op with
    | some m => decodeOperands rest m
    | none => .ok (.unknown op, rest)

/-- The encoder (R71): the opcode byte, then the operand bytes. -/
def encodeWith (t : OpcodeTable) : Instr → List Byte
  | .hlt => [t .hlt]
  | .ldi rA imm8 => [t .ldi, rA, imm8]
  | .prn rA => [t .prn, rA]
  | .push rA => [t .push, rA]
  | .pop rA => [t .pop, rA]
  | .cmp rA rB => [t .cmp, rA, rB]
  | .jmp rA => [t .jmp, rA]
  | .jeq rA => [t .jeq, rA]
  | .jne rA => [t .jne, rA]
  | .add rA rB => [t .add, rA, rB]
  | .sub rA rB => [t .sub, rA, rB]
  | .mul rA rB => [t .mul, rA, rB]
  | .unknown op => [op]

/-- Decoding an opcode byte under the default table. -/
def decodeOpcode (op : Byte) : Option Mnemonic := decodeOpcodeWith opcode op

/-- The decoder under the default table. -/
def decode (bytes : List Byte) : DecodeAnswer := decodeWith opcode bytes

/-- The encoder under the default table. -/
def encode (i : Instr) : List Byte := encodeWith opcode i

/-- Well-formed under the default table. -/
def Instr.wf (i : Instr) : Bool := i.wfFor opcode

/-- The first `n` bytes of a table word: byte k is bits 8k+7 to 8k, and every bit from `nbits` on is 0. -/
def tableBytes (nbits w n : Nat) : List Byte :=
  (List.range n).map fun k => BitVec.ofNat 8 ((w % 2 ^ nbits) >>> (8 * k))

/-- The bytes the sequencer fetches for a table word: the opcode byte (byte 0) and its `op[7:6]` operand bytes (R68). -/
def fetchedTableBytes (nbits w : Nat) : List Byte :=
  tableBytes nbits w (1 + opcodeOperands (BitVec.ofNat 8 (w % 2 ^ nbits)))

/-- The instruction the decoder reads from a word of spec/opcode_table.json, laid out at rising addresses (R43). -/
def decodeTableWord (nbits w : Nat) : Option Instr :=
  match decode (fetchedTableBytes nbits w) with
  | .ok (i, _) => some i
  | .error _ => none

end Sys2Proof
end

