-- ==== Sys2Proof/Machine/Operands.lean ====
section
/-! DEFINITION. Fetching an instruction's bytes (spec/40_sequencer.md R81, R82) and the register operand form with its check
(R62, R85). The immediate form needs no operation: the byte is used unchanged (R62). -/

namespace Sys2Proof.Machine

/-- R85's check of a register operand: the whole byte is the index, never masked; 8 or more raises OutOfBounds. -/
def regIndex (r : Byte) : Except ErrorKind (Fin Config.numRegs) :=
  if h : r.toNat < Config.numRegs then .ok ⟨r.toNat, h⟩ else .error .outOfBounds

/-- Fetch: the opcode byte at pc (R81), then its `op[7:6]` operand bytes, each bounds-checked, for every opcode (R82, D8). -/
def fetch (s : State) : Except ErrorKind (List Byte) := do
  let op ← s.memRead s.pc.toNat
  let operands ← s.memReadMany (s.pc.toNat + 1) (opcodeOperands op)
  pure (op :: operands)

/-- The state with the bytes of a table word standing where the next step fetches, and Running, so that it fetches them.
It stands for the load of a program from outside (R201; log entry 5). -/
def placeTableWord (s : State) (nbits w : Nat) : State :=
  { s.setMem (s.mem.writeBytes s.pc.toNat (fetchedTableBytes nbits w)) with run := .running }

end Sys2Proof.Machine
end

