-- ==== Sys2Proof/Machine/Alu.lean ====
section
/-! DEFINITION. The ALU (spec/44_alu.md R160, R161), a pure function of a tag and two bytes, and the form of the instructions
that call it. -/

namespace Sys2Proof.Machine

/-- The ALU's operation tag. -/
inductive AluTag where
  | add
  | sub
  | mul
  | cmp
  /-- Any tag outside the four: no instruction gives it (R161). -/
  | other
  deriving DecidableEq, Repr

/-- `alu(tag, a, b)` (R160): the exact result in the integers, wrapped at the end; for CMP the new flags value. -/
def alu (tag : AluTag) (a b : Byte) : Except ErrorKind Byte :=
  match tag with
  | .add => .ok (wrap8 (a.toNat + b.toNat))
  | .sub => .ok (wrap8 (a.toNat - b.toNat))
  | .mul => .ok (wrap8 (a.toNat * b.toNat))
  | .cmp => .ok (compareFlags a b)
  | .other => .error .unsupportedOperation

/-- The shared form of ADD, SUB and MUL (R162 to R164): both register checks, both reads, then the one write; pc + 3. -/
def aluWriteBack (tag : AluTag) (rA rB : Byte) (s : State) : Except ErrorKind State := do
  let a ← regIndex rA
  let b ← regIndex rB
  let v ← alu tag (s.reg a) (s.reg b)
  pure ((s.setReg a v).advance 3)

end Sys2Proof.Machine
end

