-- ==== Sys2Proof/Machine/Arithmetic.lean ====
section
/-! DEFINITION. ADD, SUB and MUL (spec/44_alu.md R162 to R166). None writes FL. -/

namespace Sys2Proof.Machine

/-- ADD (R162): `x[rA] <- wrap8(x[rA] + x[rB])`. -/
def execAdd (rA rB : Byte) (s : State) : Host.Outcome State Fault Refusal :=
  s.finish (aluWriteBack .add rA rB s)

/-- SUB (R163): `x[rA] <- wrap8(x[rA] - x[rB])`. -/
def execSub (rA rB : Byte) (s : State) : Host.Outcome State Fault Refusal :=
  s.finish (aluWriteBack .sub rA rB s)

/-- MUL (R164): `x[rA] <- wrap8(x[rA] * x[rB])`, the standard form (C1, D6). -/
def execMul (rA rB : Byte) (s : State) : Host.Outcome State Fault Refusal :=
  s.finish (aluWriteBack .mul rA rB s)

end Sys2Proof.Machine
end

