-- ==== Sys2Proof/Machine/CompareBranch.lean ====
section
/-! DEFINITION. CMP, JMP, JEQ and JNE (spec/43_compare_branch.md). -/

namespace Sys2Proof.Machine

/-- The shared form of the control transfers (R87, R142 to R144): the register is checked whether or not the transfer is
taken (R85); taken, pc becomes the register's value and nothing is added; not taken, pc + 2. -/
def branch (taken : Bool) (rA : Byte) (s : State) : Except ErrorKind State := do
  let a ← regIndex rA
  pure (if taken then s.setPc (zext9 (s.reg a)) else s.advance 2)

/-- CMP (R140): FL takes the ALU's new flags value, all eight bits of it. -/
def execCmp (rA rB : Byte) (s : State) : Host.Outcome State Fault Refusal :=
  s.finish do
    let a ← regIndex rA
    let b ← regIndex rB
    let v ← alu .cmp (s.reg a) (s.reg b)
    pure ((s.setFl v).advance 3)

/-- JMP (R142). -/
def execJmp (rA : Byte) (s : State) : Host.Outcome State Fault Refusal :=
  s.finish (branch (s.taken .jmp) rA s)

/-- JEQ (R143). -/
def execJeq (rA : Byte) (s : State) : Host.Outcome State Fault Refusal :=
  s.finish (branch (s.taken .jeq) rA s)

/-- JNE (R144). -/
def execJne (rA : Byte) (s : State) : Host.Outcome State Fault Refusal :=
  s.finish (branch (s.taken .jne) rA s)

end Sys2Proof.Machine
end

