-- ==== Sys2Proof/Machine/HaltLoadPrint.lean ====
section
/-! DEFINITION. HLT, LDI and PRN (spec/41_halt_load_print.md). -/

namespace Sys2Proof.Machine

/-- HLT (R100): Halted, and the auto-advance still applies (D12). -/
def execHlt (s : State) : Host.Outcome State Fault Refusal :=
  .next (s.halt.advance 1)

/-- LDI (R101): `x[rA] <- imm8`; the immediate is never checked. -/
def execLdi (rA imm8 : Byte) (s : State) : Host.Outcome State Fault Refusal :=
  s.finish do
    let a ← regIndex rA
    pure ((s.setReg a imm8).advance 3)

/-- PRN (R102): `emit(x[rA])`. -/
def execPrn (rA : Byte) (s : State) : Host.Outcome State Fault Refusal :=
  s.finish do
    let a ← regIndex rA
    pure ((s.emit (s.reg a)).advance 2)

end Sys2Proof.Machine
end

