-- ==== Sys2Proof/Machine/Stack.lean ====
section
/-! DEFINITION. PUSH and POP (spec/42_stack.md). -/

namespace Sys2Proof.Machine

/-- The memory address SP holds (R23). -/
def State.stackAddress (s : State) : Nat := s.sp.toNat

/-- `SP <- SP - 1`, modulo 256 (R120, R121). -/
def State.decrementSp (s : State) : State := s.setSp (wrap8 (s.sp.toNat - 1))

/-- `SP <- SP + 1`, modulo 256 (R120, R122). -/
def State.incrementSp (s : State) : State := s.setSp (wrap8 (s.sp.toNat + 1))

/-- PUSH (R121): SP is decremented first; the address and x[rA] are read after that, so PUSH R7 stores the decremented SP. -/
def execPush (rA : Byte) (s : State) : Host.Outcome State Fault Refusal :=
  s.finish do
    let a ← regIndex rA
    let t := s.decrementSp
    let u ← t.memWrite t.stackAddress (t.reg a)
    pure (u.advance 2)

/-- POP (R122): x[rA] is written first; SP is read after that write, so POP R7 ends with the popped byte plus 1. -/
def execPop (rA : Byte) (s : State) : Host.Outcome State Fault Refusal :=
  s.finish do
    let a ← regIndex rA
    let v ← s.memRead s.stackAddress
    pure ((s.setReg a v).incrementSp.advance 2)

end Sys2Proof.Machine
end

