-- ==== Sys2Proof/Machine/Unknown.lean ====
section
/-! DEFINITION. The default arm for unknown opcodes (spec/40_sequencer.md R90). -/

namespace Sys2Proof.Machine

/-- UNKNOWN (R90): a one-byte no-op, whatever `op[7:6]` says. The bounds check on its operand bytes is the fetch's (R82). -/
def execUnknown (_op : Byte) (s : State) : Host.Outcome State Fault Refusal :=
  .next (s.advance 1)

end Sys2Proof.Machine
end

