-- ==== Sys2Proof/Machine/Step.lean ====
section
/-! DEFINITION. One step of the CORE (spec/40_sequencer.md R92), under any OPCODE table and under the default one. -/

namespace Sys2Proof.Machine

/-- A step under the OPCODE table `t`. While Running: fetch, decode, execute; an error of the fetch is taken (R91). While
Halted no step occurs and nothing changes (R89): the state is answered as it is (DESIGN CHOICE, log entry 4). -/
def stepWith (t : OpcodeTable) (s : State) : Host.Outcome State Fault Refusal :=
  match s.run with
  | .halted => .next s
  | .running =>
    match fetch s with
    | .error e => .next (s.takeError e)
    | .ok bytes =>
      match decodeWith t bytes with
      | .ok (i, _) => exec i s
      | .error _ => .refused .truncatedInstruction

/-- A step under the default table. -/
def step (s : State) : Host.Outcome State Fault Refusal := stepWith opcode s

/-- The state with a word of spec/opcode_table.json standing where `step` fetches its next instruction (log entry 5). -/
def State.withFetchWord (s : State) (nbits w : Nat) : State := placeTableWord s nbits w

end Sys2Proof.Machine
end

