-- ==== Sys2Proof/Machine/Interfaces.lean ====
section
/-! DEFINITION. The CORE's interfaces to its collaborators (spec/10_state.md R32 to R36): LOAD, RUN and INSPECT as functions;
OUT is the stream State.out, one byte per event (R35). -/

namespace Sys2Proof.Machine

/-- LOAD (R34, R201) with base 0: the length is checked first, and an image over 256 bytes is answered with OutOfBounds;
then no state is changed, since none is answered (D15). Otherwise the bytes stand from address 0. -/
def State.load (s : State) (image : List Byte) : Except ErrorKind State :=
  if Config.memSize < image.length then .error .outOfBounds
  else .ok (s.setMem (s.mem.writeBytes Config.loadBase image))

/-- Construction and load (R200 to R202): the state before the first step, or the refusal of the image. -/
def launch (initRegs : Vector Byte 7) (initMem : Memory) (image : List Byte) : Except ErrorKind State :=
  (State.construct initRegs initMem).load image

/-- INSPECT of a register (R33): an index of 8 or more fails toward the host. -/
def State.inspectReg (s : State) (i : Nat) : Except ErrorKind Byte :=
  if h : i < Config.numRegs then .ok (s.reg ⟨i, h⟩) else .error .outOfBounds

/-- INSPECT of a memory byte (R33): an address of 256 or more fails toward the host. -/
def State.inspectMem (s : State) (a : Nat) : Except ErrorKind Byte := s.memRead a

/-- INSPECT of pc (R33). -/
def State.inspectPc (s : State) : PcWord := s.pc

/-- INSPECT of FL (R33). -/
def State.inspectFl (s : State) : Byte := s.fl

/-- INSPECT of the run state (R33). -/
def State.inspectRun (s : State) : RunState := s.run

/-- INSPECT of the error status, as its code (R28, R33). -/
def State.inspectErr (s : State) : Nat := ErrorStatus.code s.err

/-- The run loop (R80), at most `fuel` steps of it: the step is repeated while the run state is Running. The bound is the
model's (log entry 6); the hardware has none (R93). -/
def runLoop : Nat → State → Host.Outcome State Fault Refusal
  | 0, s => .next s
  | fuel + 1, s =>
    match s.run with
    | .halted => .next s
    | .running =>
      match step s with
      | .next t => runLoop fuel t
      | .fault r => .fault r
      | .refused r => .refused r

/-- RUN (R36): the error status the run returns with at Halted; `none` where it has not halted within `fuel` steps. -/
def runReturn (fuel : Nat) (s : State) : Option ErrorStatus :=
  match runLoop fuel s with
  | .next t => if t.run = .halted then some t.err else none
  | .fault _ | .refused _ => none

/-- Instructions executed one after the other, each to its next state, with no fetch between them. -/
def execAll : List Instr → State → Host.Outcome State Fault Refusal
  | [], s => .next s
  | i :: rest, s =>
    match exec i s with
    | .next t => execAll rest t
    | .fault r => .fault r
    | .refused r => .refused r

end Sys2Proof.Machine
end

