-- ==== Sys2Proof/Safety.lean ====
section
/-! DEFINITION. What counts as a safe state and as a clean end, and the words the statements use for what stays the same. -/

namespace Sys2Proof.Machine

/-- A run has ended cleanly: Halted with error status None (R13). -/
def State.EndedCleanly (s : State) : Prop := s.run = .halted ∧ s.err = none

/-- A run has ended in error: Halted with an error kind recorded (R13). -/
def State.EndedInError (s : State) : Prop := s.run = .halted ∧ s.err ≠ none

/-- The invariant of every reachable state: memory in its canonical form and within 256 bytes; `pc` at most 256 (R25); FL
zero or one-hot in bits 2:0, with bits 7:3 zero (R26); an error only when Halted (R28, R91); never UnsupportedOperation
(R161). -/
structure State.Inv (s : State) : Prop where
  memWf : s.mem.wf = true
  pcBound : s.pc.toNat ≤ 256
  flLegal : s.fl ∈ [0b000#8, 0b001#8, 0b010#8, 0b100#8]
  errHalted : s.err ≠ none → s.run = .halted
  errKind : s.err = none ∨ s.err = some .outOfBounds

/-- What R91 says a fault of kind OutOfBounds leaves: only `run` and `err` are written. -/
def State.afterOutOfBounds (s : State) : State :=
  { s with run := .halted, err := some .outOfBounds }

/-- Every byte of memory, but for those at the listed addresses, reads as before. -/
def MemSameBut (stored : List Nat) (s t : State) : Prop :=
  ∀ a, a ∉ stored → t.memRead a = s.memRead a

/-- Every register, but for the listed ones, reads as before. -/
def RegsSameBut (written : List (Fin Config.numRegs)) (s t : State) : Prop :=
  ∀ j, j ∉ written → t.reg j = s.reg j

/-- Run state, error status and output stream are as before. -/
def StatusSame (s t : State) : Prop := t.run = s.run ∧ t.err = s.err ∧ t.out = s.out

/-- An instruction of this mnemonic whose last byte would lie at 256 or above faults at fetch, and the fault is precise
(R81, R82, R91). -/
def FetchFaults (t : OpcodeTable) (m : Mnemonic) : Prop :=
  ∀ s : State, s.run = .running → s.memRead s.pc.toNat = .ok (t m) → 256 ≤ s.pc.toNat + m.operandCount →
    stepWith t s = .next s.afterOutOfBounds

/-- The bytes stand in memory from an address on, all of them below 256. -/
def BytesAt (s : State) (a : Nat) (bytes : List Byte) : Prop :=
  ∀ k (h : k < bytes.length), s.memRead (a + k) = .ok bytes[k]

end Sys2Proof.Machine
end

