-- ==== Sys2Proof/Certificates/Slice0/Obligations.lean ====
section
/-! DEFINITION. The statements for the provers. Each docstring names the rule of spec/ it formalises. -/

open Sys2Proof Sys2Proof.Machine

/-! ### Encoding (spec/30_encoding.md) -/

/-- R64: the default table holds the listed values and meets both constraints. The values are general knowledge (log entry 1). -/
def Obligations.DefaultOpcodesMeetConstraints : Prop :=
  opcode.Ok ∧
  Mnemonic.all.map opcode =
    [0x01#8, 0x82#8, 0x47#8, 0x45#8, 0x46#8, 0xA7#8, 0x54#8, 0x55#8, 0x56#8, 0xA0#8, 0xA1#8, 0xA2#8]

/-- Words of the spec's examples and vectors decode to the instructions they stand for (R69, R101, R140, 95 L2; the byte
values are log entry 1's). -/
def Obligations.SampleWordsDecode : Prop :=
  decode [0x01#8] = .ok (.hlt, []) ∧
  decode [0x82#8, 0x00#8, 0x08#8] = .ok (.ldi 0#8 8#8, []) ∧
  decode [0x47#8, 0x08#8] = .ok (.prn 8#8, []) ∧
  decode [0x45#8, 0x07#8] = .ok (.push 7#8, []) ∧
  decode [0xA7#8, 0x00#8, 0x01#8] = .ok (.cmp 0#8 1#8, []) ∧
  decode [0x55#8, 0x02#8] = .ok (.jeq 2#8, []) ∧
  decode [0xA2#8, 0x01#8, 0x00#8] = .ok (.mul 1#8 0#8, []) ∧
  decode [0x50#8, 0x01#8] = .ok (.unknown 0x50#8, [0x01#8])

/-- R65: decoding an opcode byte is an exact match of the whole byte, total and with one answer. -/
def Obligations.OpcodeMatchIsExact : Prop :=
  ∀ t : OpcodeTable, t.Ok → ∀ op : Byte,
    (∀ m, decodeOpcodeWith t op = some m ↔ t m = op) ∧ (decodeOpcodeWith t op = none ↔ ∀ m, t m ≠ op)

/-- R66: under the default table (log entry 1), 244 byte values are Unknown, 63, 58, 59 and 64 of them by their operand count. -/
def Obligations.UnknownOpcodeCounts : Prop :=
  ∀ n : Fin 4,
    ((List.range 256).filter fun b =>
        (decodeOpcode (BitVec.ofNat 8 b)).isNone && opcodeOperands (BitVec.ofNat 8 b) == n.val).length =
      [63, 58, 59, 64][n]

/-- R71: the bytes of every defined instruction. -/
def Obligations.EncodingFunction : Prop :=
  ∀ (t : OpcodeTable) (a b : Byte),
    encodeWith t .hlt = [t .hlt] ∧ encodeWith t (.ldi a b) = [t .ldi, a, b] ∧ encodeWith t (.prn a) = [t .prn, a] ∧
    encodeWith t (.push a) = [t .push, a] ∧ encodeWith t (.pop a) = [t .pop, a] ∧
    encodeWith t (.cmp a b) = [t .cmp, a, b] ∧ encodeWith t (.jmp a) = [t .jmp, a] ∧
    encodeWith t (.jeq a) = [t .jeq, a] ∧ encodeWith t (.jne a) = [t .jne, a] ∧
    encodeWith t (.add a b) = [t .add, a, b] ∧ encodeWith t (.sub a b) = [t .sub, a, b] ∧
    encodeWith t (.mul a b) = [t .mul, a, b]

/-- R71's round trip, under every OPCODE table that meets R64: decoding the bytes of a well-formed instruction, whatever
follows them, gives it back with what follows. -/
def Obligations.DecodeOfEncode : Prop :=
  ∀ t : OpcodeTable, t.Ok → ∀ (i : Instr) (rest : List Byte), i.wfFor t = true →
    decodeWith t (encodeWith t i ++ rest) = .ok (i, rest)

/-- The other direction: whatever decodes is a well-formed instruction whose bytes were there. -/
def Obligations.EncodeOfDecode : Prop :=
  ∀ (t : OpcodeTable) (bytes rest : List Byte) (i : Instr), decodeWith t bytes = .ok (i, rest) →
    i.wfFor t = true ∧ encodeWith t i ++ rest = bytes

/-- R84: for a defined mnemonic the `op[7:6]` fetched bytes are exactly its operands, none left over. -/
def Obligations.FetchedBytesAreOperands : Prop :=
  ∀ t : OpcodeTable, t.Ok → ∀ (m : Mnemonic) (operands : List Byte), operands.length = opcodeOperands (t m) →
    ∃ i, decodeWith t (t m :: operands) = .ok (i, []) ∧ i.mnemonic = some m ∧ i.operands = operands

/-! ### Construction, load and inspection (spec/10_state.md, spec/70_reset_and_hazards.md) -/

/-- R201: the length is checked first; an image over 256 bytes is refused; otherwise the bytes stand from address 0 and
nothing else changes. -/
def Obligations.LoadWritesImageAtZero : Prop :=
  ∀ (s : State) (image : List Byte),
    (256 < image.length → s.load image = .error .outOfBounds) ∧
    (image.length ≤ 256 → ∃ u, s.load image = .ok u ∧ BytesAt u 0 image ∧
      (∀ a, image.length ≤ a → u.memRead a = s.memRead a) ∧ RegsSameBut [] s u ∧ u.pc = s.pc ∧ u.fl = s.fl ∧
      StatusSame s u)

/-- R37: the state after construction and a successful load, for every INIT_REGS, INIT_MEM and image. -/
def Obligations.LaunchGivesResetTable : Prop :=
  ∀ (initRegs : Vector Byte 7) (initMem : Memory) (image : List Byte), image.length ≤ 256 →
    ∃ u, launch initRegs initMem image = .ok u ∧ BytesAt u 0 image ∧
      (∀ a, image.length ≤ a → a < 256 → u.memRead a = .ok (initMem.read a)) ∧
      (∀ i : Fin 7, u.reg i.castSucc = initRegs[i]) ∧ u.reg 7 = 0xF4#8 ∧ u.pc = 0#9 ∧ u.fl = 0x00#8 ∧
      u.run = .running ∧ u.err = none ∧ u.out = []

/-- R202: after a successful load the first step executes the instruction at the start of the image. -/
def Obligations.LaunchRunsFirstInstruction : Prop :=
  ∀ t : OpcodeTable, t.Ok → ∀ (initRegs : Vector Byte 7) (initMem : Memory) (i : Instr) (rest : List Byte),
    i.wfFor t = true → (encodeWith t i ++ rest).length ≤ 256 →
    ∃ u, launch initRegs initMem (encodeWith t i ++ rest) = .ok u ∧ stepWith t u = exec i u

/-- The values of State.reset. x[0] to x[6] and the memory bytes are the model's choice (log entries 2 and 3), the others
R200's. -/
def Obligations.ResetStateValues : Prop :=
  (∀ i : Fin 8, State.reset.reg i = if i = 7 then 0xF4#8 else 0x00#8) ∧
  (∀ a, a < 256 → State.reset.memRead a = .ok 0x00#8) ∧
  State.reset.pc = 0#9 ∧ State.reset.fl = 0x00#8 ∧ State.reset.run = .running ∧ State.reset.err = none ∧
  State.reset.out = []

/-- R33: what INSPECT answers; out of range it fails with OutOfBounds. The error status is read as its code (R28). -/
def Obligations.InspectReadsState : Prop :=
  ∀ s : State,
    (∀ i : Fin 8, s.inspectReg i = .ok (s.reg i)) ∧ (∀ i, 8 ≤ i → s.inspectReg i = .error .outOfBounds) ∧
    (∀ a, a < 256 → s.inspectMem a = .ok (s.mem.read a)) ∧ (∀ a, 256 ≤ a → s.inspectMem a = .error .outOfBounds) ∧
    s.inspectPc = s.pc ∧ s.inspectFl = s.fl ∧ s.inspectRun = s.run ∧
    (s.err = none → s.inspectErr = 0) ∧ (s.err = some .outOfBounds → s.inspectErr = 1) ∧
    (s.err = some .unsupportedOperation → s.inspectErr = 2)

/-! ### The sequencer (spec/40_sequencer.md) -/

/-- R92: while Running, when the fetched bytes decode to an instruction, the step is that instruction's execution, with
nothing around it: each meaning holds its own PC update. -/
def Obligations.StepRunsDecodedInstruction : Prop :=
  (∀ (t : OpcodeTable) (s : State) (bytes rest : List Byte) (i : Instr), s.run = .running → fetch s = .ok bytes →
    decodeWith t bytes = .ok (i, rest) → stepWith t s = exec i s) ∧
  ∀ s, step s = stepWith opcode s

/-- R92 from memory: where a well-formed instruction's bytes stand at pc, and an unknown opcode's `op[7:6]` bytes lie in
memory (R82), the step executes it with the operands that stood there before it, whatever it then writes. -/
def Obligations.EncodedInstructionRuns : Prop :=
  ∀ t : OpcodeTable, t.Ok → ∀ (i : Instr) (s : State), i.wfFor t = true → s.run = .running →
    BytesAt s s.pc.toNat (encodeWith t i) → (∀ op, i = .unknown op → s.pc.toNat + opcodeOperands op < 256) →
    stepWith t s = exec i s

/-- R81, R82: the opcode byte at pc and its `op[7:6]` operand bytes are fetched, for every opcode; where one of them would
lie at 256 or above, the step is a fault. -/
def Obligations.FetchIsBoundsChecked : Prop :=
  ∀ (t : OpcodeTable) (s : State),
    (256 ≤ s.pc.toNat → s.run = .running → stepWith t s = .next s.afterOutOfBounds) ∧
    ∀ op, s.memRead s.pc.toNat = .ok op →
      (256 ≤ s.pc.toNat + opcodeOperands op → s.run = .running → stepWith t s = .next s.afterOutOfBounds) ∧
      (s.pc.toNat + opcodeOperands op < 256 → ∃ operands, fetch s = .ok (op :: operands) ∧
        operands.length = opcodeOperands op ∧ BytesAt s (s.pc.toNat + 1) operands)

/-- R85: every register operand is checked, the branch not taken included; one of 8 or more raises OutOfBounds before
anything is written. Nothing else is checked, the immediate of LDI included: with valid registers nothing is raised. -/
def Obligations.RegisterOperandsAreChecked : Prop :=
  ∀ (i : Instr) (s : State),
    (∀ r ∈ i.registerOperands, 8 ≤ r.toNat → exec i s = .next s.afterOutOfBounds) ∧
    ((∀ r ∈ i.registerOperands, r.toNat < 8) → ∃ u, exec i s = .next u ∧ u.err = s.err)

/-- R87: the PC update of a step that completes. A taken transfer leaves the handler's pc, an unknown opcode adds 1, every
other instruction adds 1 + N; no wrap, and at most 256. Only HLT ends the run. -/
def Obligations.PcAdvance : Prop :=
  ∀ t : OpcodeTable, t.Ok → ∀ (i : Instr) (s : State), i.wfFor t = true → s.run = .running →
    BytesAt s s.pc.toNat (encodeWith t i) → (∀ op, i = .unknown op → s.pc.toNat + opcodeOperands op < 256) →
    (∀ r ∈ i.registerOperands, r.toNat < 8) →
    ∃ u, stepWith t s = .next u ∧ u.pc.toNat ≤ 256 ∧ (i ≠ .hlt → u.run = .running) ∧
      match i.mnemonic with
      | none => u.pc.toNat = s.pc.toNat + 1
      | some m =>
        if s.taken m then ∃ j : Fin 8, i.operands = [BitVec.ofNat 8 j] ∧ u.pc.toNat = (s.reg j).toNat
        else u.pc.toNat = s.pc.toNat + 1 + m.operandCount

/-- R89: Halted is terminal; no step changes anything. -/
def Obligations.HaltedIsTerminal : Prop :=
  ∀ (t : OpcodeTable) (s u : State), s.run = .halted → stepWith t s = .next u → u = s

/-- R91: a step that faults writes Halted and OutOfBounds and nothing else. -/
def Obligations.FaultIsPrecise : Prop :=
  ∀ (t : OpcodeTable) (s u : State), s.run = .running → s.err = none → stepWith t s = .next u → u.err ≠ none →
    u.mem = s.mem ∧ u.regs = s.regs ∧ u.pc = s.pc ∧ u.fl = s.fl ∧ u.out = s.out ∧ u.run = .halted ∧
    u.err = some .outOfBounds

/-- R181: a step raises OutOfBounds at exactly the three sites of the step: opcode fetch, operand fetch, register index. -/
def Obligations.OutOfBoundsSites : Prop :=
  ∀ t : OpcodeTable, t.Ok → ∀ s u : State, s.run = .running → s.err = none → stepWith t s = .next u →
    (u.err = some .outOfBounds ↔
      256 ≤ s.pc.toNat ∨
      (∃ op, s.memRead s.pc.toNat = .ok op ∧ 256 ≤ s.pc.toNat + opcodeOperands op) ∨
      ∃ i, i.wfFor t = true ∧ BytesAt s s.pc.toNat (encodeWith t i) ∧ ∃ r ∈ i.registerOperands, 8 ≤ r.toNat)

/-- R161, R182: the ALU raises UnsupportedOperation for a tag outside the four (that the tag type has one: DEDUCED, log
entry 8), and no step ever records it. -/
def Obligations.UnsupportedOperationNeverRecorded : Prop :=
  (∀ a b, alu .other a b = .error .unsupportedOperation) ∧
  ∀ (t : OpcodeTable) (s u : State), stepWith t s = .next u → u.err = some .unsupportedOperation →
    s.err = some .unsupportedOperation

/-- Every step answers a next state: no opcode is refused, and an error is taken as R91 says (R67, R91). That a step of a
Halted machine answers its own state is the model's choice (log entry 4). -/
def Obligations.StepAlwaysAnswersState : Prop :=
  (∀ t : OpcodeTable, t.Ok → ∀ s : State, ∃ u, stepWith t s = .next u) ∧ ∀ s, ∃ u, step s = .next u

/-! ### The invariant -/

/-- Every step keeps the invariant: canonical memory, pc at most 256 (R25), FL zero or one-hot (R26), an error only when
Halted (R91), never UnsupportedOperation (R161). -/
def Obligations.StepKeepsInvariant : Prop :=
  (∀ (t : OpcodeTable) (s u : State), s.Inv → stepWith t s = .next u → u.Inv) ∧
  ∀ s u : State, s.Inv → step s = .next u → u.Inv

/-- The invariant holds at State.reset. -/
def Obligations.ResetMeetsInvariant : Prop :=
  State.reset.Inv

/-- The invariant holds at every launch, for every INIT_REGS, canonical INIT_MEM and image. -/
def Obligations.LaunchMeetsInvariant : Prop :=
  ∀ (initRegs : Vector Byte 7) (initMem : Memory) (image : List Byte) (u : State), initMem.wf = true →
    launch initRegs initMem image = .ok u → u.Inv

/-- R26: after a CMP that completes, exactly one of E, G and L is set and bits 7:3 are 0, and every later step keeps it so. -/
def Obligations.FlOneHotAfterCompare : Prop :=
  (∀ (rA rB : Byte) (s u : State), rA.toNat < 8 → rB.toNat < 8 → exec (.cmp rA rB) s = .next u →
    u.fl ∈ [0b001#8, 0b010#8, 0b100#8]) ∧
  ∀ (t : OpcodeTable) (s u : State), s.fl ∈ [0b001#8, 0b010#8, 0b100#8] → stepWith t s = .next u →
    u.fl ∈ [0b001#8, 0b010#8, 0b100#8]

/-! ### HLT, LDI and PRN (spec/41_halt_load_print.md) -/

/-- R100: HLT halts and advances pc by 1; err, registers, FL, memory and out are unchanged, and no later step changes
anything. -/
def Obligations.HltHalts : Prop :=
  ∀ t : OpcodeTable, t.Ok → ∀ s : State,
    encodeWith t .hlt = [t .hlt] ∧ (s.run = .running → 256 ≤ s.pc.toNat → stepWith t s = .next s.afterOutOfBounds) ∧
    ∃ u, exec .hlt s = .next u ∧ u.run = .halted ∧ u.pc = s.pc + 1 ∧ u.err = s.err ∧ u.out = s.out ∧ u.fl = s.fl ∧
      RegsSameBut [] s u ∧ MemSameBut [] s u ∧ ∀ v, stepWith t u = .next v → v = u

/-- R101: LDI. -/
def Obligations.LdiLoadsImmediate : Prop :=
  ∀ t : OpcodeTable, t.Ok → ∀ (rA imm8 : Byte) (s : State),
    encodeWith t (.ldi rA imm8) = [t .ldi, rA, imm8] ∧ FetchFaults t .ldi ∧
    (8 ≤ rA.toNat → exec (.ldi rA imm8) s = .next s.afterOutOfBounds) ∧
    ∀ h : rA.toNat < 8, ∃ u, exec (.ldi rA imm8) s = .next u ∧ u.reg ⟨rA.toNat, h⟩ = imm8 ∧
      RegsSameBut [⟨rA.toNat, h⟩] s u ∧ u.pc = s.pc + 3 ∧ u.fl = s.fl ∧ MemSameBut [] s u ∧ StatusSame s u

/-- R102: PRN. -/
def Obligations.PrnEmitsRegister : Prop :=
  ∀ t : OpcodeTable, t.Ok → ∀ (rA : Byte) (s : State),
    encodeWith t (.prn rA) = [t .prn, rA] ∧ FetchFaults t .prn ∧
    (8 ≤ rA.toNat → exec (.prn rA) s = .next s.afterOutOfBounds) ∧
    ∀ h : rA.toNat < 8, ∃ u, exec (.prn rA) s = .next u ∧ u.out = s.out ++ [s.reg ⟨rA.toNat, h⟩] ∧
      RegsSameBut [] s u ∧ u.pc = s.pc + 2 ∧ u.fl = s.fl ∧ MemSameBut [] s u ∧ u.run = s.run ∧ u.err = s.err

/-! ### PUSH and POP (spec/42_stack.md) -/

/-- R121: PUSH. The address and, for R7, the stored value are those after the decrement; the write never faults. -/
def Obligations.PushStoresRegister : Prop :=
  ∀ t : OpcodeTable, t.Ok → ∀ (rA : Byte) (s : State),
    encodeWith t (.push rA) = [t .push, rA] ∧ FetchFaults t .push ∧
    (8 ≤ rA.toNat → exec (.push rA) s = .next s.afterOutOfBounds) ∧
    s.decrementSp.stackAddress = (s.reg 7 - 1).toNat ∧
    ∀ h : rA.toNat < 8, ∃ u, exec (.push rA) s = .next u ∧ u.reg 7 = s.reg 7 - 1 ∧ RegsSameBut [7] s u ∧
      u.memRead s.decrementSp.stackAddress = .ok (if rA = 7 then s.reg 7 - 1 else s.reg ⟨rA.toNat, h⟩) ∧
      MemSameBut [s.decrementSp.stackAddress] s u ∧ u.pc = s.pc + 2 ∧ u.fl = s.fl ∧ StatusSame s u

/-- R122: POP. The popped byte goes to the register, then SP is incremented; POP R7 ends with the popped byte plus 1. The
memory byte keeps its value. -/
def Obligations.PopLoadsRegister : Prop :=
  ∀ t : OpcodeTable, t.Ok → ∀ (rA : Byte) (s : State),
    encodeWith t (.pop rA) = [t .pop, rA] ∧ FetchFaults t .pop ∧
    (8 ≤ rA.toNat → exec (.pop rA) s = .next s.afterOutOfBounds) ∧
    ∀ h : rA.toNat < 8, ∃ v u, s.memRead (s.reg 7).toNat = .ok v ∧ exec (.pop rA) s = .next u ∧
      (if rA = 7 then u.reg 7 = v + 1 else u.reg ⟨rA.toNat, h⟩ = v ∧ u.reg 7 = s.reg 7 + 1) ∧
      RegsSameBut [⟨rA.toNat, h⟩, 7] s u ∧ MemSameBut [] s u ∧ u.pc = s.pc + 2 ∧ u.fl = s.fl ∧ StatusSame s u

/-- R123: PUSH and then POP of the same register restores every register and leaves the pushed value in memory. -/
def Obligations.PushThenPopRestores : Prop :=
  ∀ (rA : Byte) (s : State) (h : rA.toNat < 8), ∃ u v, exec (.push rA) s = .next u ∧ exec (.pop rA) u = .next v ∧
    RegsSameBut [] s v ∧ v.memRead (s.reg 7 - 1).toNat = .ok (if rA = 7 then s.reg 7 - 1 else s.reg ⟨rA.toNat, h⟩) ∧
    MemSameBut [(s.reg 7 - 1).toNat] s v ∧ v.fl = s.fl ∧ StatusSame s v

/-- R123 for nested pairs: up to 256 registers pushed one after the other and popped in reverse order leave every register,
SP included, as it was. Beyond 256 the pushes would overwrite each other (R123's wrap). -/
def Obligations.NestedPushPopRestores : Prop :=
  ∀ (rs : List Byte) (s : State), (∀ r ∈ rs, r.toNat < 8) → rs.length ≤ 256 →
    ∃ u, execAll (rs.map Instr.push ++ rs.reverse.map Instr.pop) s = .next u ∧ RegsSameBut [] s u ∧
      MemSameBut ((List.range rs.length).map fun k => (s.reg 7 - BitVec.ofNat 8 (k + 1)).toNat) s u ∧ u.fl = s.fl ∧
      StatusSame s u

/-- R52: a byte PUSH writes at the address of the next instruction is the opcode that the next fetch reads. -/
def Obligations.NextFetchSeesPush : Prop :=
  ∀ (rA : Byte) (s : State) (h : rA.toNat < 8), ∃ u, exec (.push rA) s = .next u ∧
    (u.pc.toNat = s.decrementSp.stackAddress → ∀ bytes, fetch u = .ok bytes →
      bytes.head? = some (s.decrementSp.reg ⟨rA.toNat, h⟩))

/-! ### CMP, JMP, JEQ and JNE (spec/43_compare_branch.md) -/

/-- R140: CMP. Unsigned; all of FL is written. -/
def Obligations.CmpSetsOneFlag : Prop :=
  ∀ t : OpcodeTable, t.Ok → ∀ (rA rB : Byte) (s : State),
    encodeWith t (.cmp rA rB) = [t .cmp, rA, rB] ∧ FetchFaults t .cmp ∧
    (8 ≤ rA.toNat ∨ 8 ≤ rB.toNat → exec (.cmp rA rB) s = .next s.afterOutOfBounds) ∧
    ∀ (ha : rA.toNat < 8) (hb : rB.toNat < 8), ∃ u, exec (.cmp rA rB) s = .next u ∧
      ((s.reg ⟨rA.toNat, ha⟩).toNat = (s.reg ⟨rB.toNat, hb⟩).toNat → u.fl = 0b00000001#8) ∧
      ((s.reg ⟨rA.toNat, ha⟩).toNat > (s.reg ⟨rB.toNat, hb⟩).toNat → u.fl = 0b00000010#8) ∧
      ((s.reg ⟨rA.toNat, ha⟩).toNat < (s.reg ⟨rB.toNat, hb⟩).toNat → u.fl = 0b00000100#8) ∧
      RegsSameBut [] s u ∧ u.pc = s.pc + 3 ∧ MemSameBut [] s u ∧ StatusSame s u

/-- R142: JMP. -/
def Obligations.JmpTransfers : Prop :=
  ∀ t : OpcodeTable, t.Ok → ∀ (rA : Byte) (s : State),
    encodeWith t (.jmp rA) = [t .jmp, rA] ∧ FetchFaults t .jmp ∧
    (8 ≤ rA.toNat → exec (.jmp rA) s = .next s.afterOutOfBounds) ∧
    ∀ h : rA.toNat < 8, ∃ u, exec (.jmp rA) s = .next u ∧ u.pc.toNat = (s.reg ⟨rA.toNat, h⟩).toNat ∧
      RegsSameBut [] s u ∧ u.fl = s.fl ∧ MemSameBut [] s u ∧ StatusSame s u

/-- R143: JEQ, taken where FL[0] is 1; the register is checked either way. -/
def Obligations.JeqBranchesOnEqual : Prop :=
  ∀ t : OpcodeTable, t.Ok → ∀ (rA : Byte) (s : State),
    encodeWith t (.jeq rA) = [t .jeq, rA] ∧ FetchFaults t .jeq ∧
    (8 ≤ rA.toNat → exec (.jeq rA) s = .next s.afterOutOfBounds) ∧
    ∀ h : rA.toNat < 8, ∃ u, exec (.jeq rA) s = .next u ∧
      (if s.fl.getLsbD 0 = true then u.pc.toNat = (s.reg ⟨rA.toNat, h⟩).toNat else u.pc = s.pc + 2) ∧
      RegsSameBut [] s u ∧ u.fl = s.fl ∧ MemSameBut [] s u ∧ StatusSame s u

/-- R144: JNE, taken where FL[0] is 0; the register is checked either way. -/
def Obligations.JneBranchesOnNotEqual : Prop :=
  ∀ t : OpcodeTable, t.Ok → ∀ (rA : Byte) (s : State),
    encodeWith t (.jne rA) = [t .jne, rA] ∧ FetchFaults t .jne ∧
    (8 ≤ rA.toNat → exec (.jne rA) s = .next s.afterOutOfBounds) ∧
    ∀ h : rA.toNat < 8, ∃ u, exec (.jne rA) s = .next u ∧
      (if s.fl.getLsbD 0 = false then u.pc.toNat = (s.reg ⟨rA.toNat, h⟩).toNat else u.pc = s.pc + 2) ∧
      RegsSameBut [] s u ∧ u.fl = s.fl ∧ MemSameBut [] s u ∧ StatusSame s u

/-- R141: the condition dispatcher's table, and that no instruction reads G, L or bits 7:3 of FL: two states that differ in
FL but agree on E step to states that differ at most in FL. -/
def Obligations.DispatcherReadsOnlyEqual : Prop :=
  (∀ s : State, s.taken .jmp = true ∧ (s.taken .jeq = true ↔ s.fl.getLsbD 0 = true) ∧
    (s.taken .jne = true ↔ s.fl.getLsbD 0 = false) ∧ ∀ m, m ≠ .jmp → m ≠ .jeq → m ≠ .jne → s.taken m = false) ∧
  ∀ (t : OpcodeTable) (s u : State) (f : Byte), f.getLsbD 0 = s.fl.getLsbD 0 → stepWith t s = .next u →
    ∃ v, stepWith t (s.setFl f) = .next v ∧ v.setFl u.fl = u

/-! ### The ALU, ADD, SUB and MUL (spec/44_alu.md) -/

/-- R160: the ALU's results, unsigned and modulo 256. That the tag type has a value outside ADD, SUB, MUL and CMP, for which
the ALU raises UnsupportedOperation, is the model's choice (DEDUCED, log entry 8); the last clause rests on it. -/
def Obligations.AluResults : Prop :=
  ∀ a b : Byte,
    (∃ v, alu .add a b = .ok v ∧ v.toNat = (a.toNat + b.toNat) % 256) ∧
    (∃ v, alu .sub a b = .ok v ∧ (v.toNat : Int) = ((a.toNat : Int) - b.toNat) % 256) ∧
    (∃ v, alu .mul a b = .ok v ∧ v.toNat = (a.toNat * b.toNat) % 256) ∧
    (∃ v, alu .cmp a b = .ok v ∧
      v = if a.toNat = b.toNat then 0x01#8 else if b.toNat < a.toNat then 0x02#8 else 0x04#8) ∧
    alu .other a b = .error .unsupportedOperation

/-- R162: ADD. -/
def Obligations.AddWraps : Prop :=
  ∀ t : OpcodeTable, t.Ok → ∀ (rA rB : Byte) (s : State),
    encodeWith t (.add rA rB) = [t .add, rA, rB] ∧ FetchFaults t .add ∧
    (8 ≤ rA.toNat ∨ 8 ≤ rB.toNat → exec (.add rA rB) s = .next s.afterOutOfBounds) ∧
    ∀ (ha : rA.toNat < 8) (hb : rB.toNat < 8), ∃ u, exec (.add rA rB) s = .next u ∧
      (u.reg ⟨rA.toNat, ha⟩).toNat = ((s.reg ⟨rA.toNat, ha⟩).toNat + (s.reg ⟨rB.toNat, hb⟩).toNat) % 256 ∧
      RegsSameBut [⟨rA.toNat, ha⟩] s u ∧ u.pc = s.pc + 3 ∧ u.fl = s.fl ∧ MemSameBut [] s u ∧ StatusSame s u

/-- R163: SUB. -/
def Obligations.SubWraps : Prop :=
  ∀ t : OpcodeTable, t.Ok → ∀ (rA rB : Byte) (s : State),
    encodeWith t (.sub rA rB) = [t .sub, rA, rB] ∧ FetchFaults t .sub ∧
    (8 ≤ rA.toNat ∨ 8 ≤ rB.toNat → exec (.sub rA rB) s = .next s.afterOutOfBounds) ∧
    ∀ (ha : rA.toNat < 8) (hb : rB.toNat < 8), ∃ u, exec (.sub rA rB) s = .next u ∧
      ((u.reg ⟨rA.toNat, ha⟩).toNat : Int) =
        (((s.reg ⟨rA.toNat, ha⟩).toNat : Int) - (s.reg ⟨rB.toNat, hb⟩).toNat) % 256 ∧
      RegsSameBut [⟨rA.toNat, ha⟩] s u ∧ u.pc = s.pc + 3 ∧ u.fl = s.fl ∧ MemSameBut [] s u ∧ StatusSame s u

/-- R164: MUL, the standard form. -/
def Obligations.MulWraps : Prop :=
  ∀ t : OpcodeTable, t.Ok → ∀ (rA rB : Byte) (s : State),
    encodeWith t (.mul rA rB) = [t .mul, rA, rB] ∧ FetchFaults t .mul ∧
    (8 ≤ rA.toNat ∨ 8 ≤ rB.toNat → exec (.mul rA rB) s = .next s.afterOutOfBounds) ∧
    ∀ (ha : rA.toNat < 8) (hb : rB.toNat < 8), ∃ u, exec (.mul rA rB) s = .next u ∧
      (u.reg ⟨rA.toNat, ha⟩).toNat = ((s.reg ⟨rA.toNat, ha⟩).toNat * (s.reg ⟨rB.toNat, hb⟩).toNat) % 256 ∧
      RegsSameBut [⟨rA.toNat, ha⟩] s u ∧ u.pc = s.pc + 3 ∧ u.fl = s.fl ∧ MemSameBut [] s u ∧ StatusSame s u

/-! ### Unknown opcodes (spec/40_sequencer.md R90) -/

/-- R90: an opcode byte no entry of OPCODE matches advances pc by 1, whatever `op[7:6]` says, and changes nothing else; it
faults at fetch only. -/
def Obligations.UnknownSkipsOneByte : Prop :=
  ∀ t : OpcodeTable, t.Ok → ∀ op : Byte, (∀ m, t m ≠ op) → ∀ s : State,
    (∃ u, exec (.unknown op) s = .next u ∧ u.pc = s.pc + 1 ∧ RegsSameBut [] s u ∧ u.fl = s.fl ∧ MemSameBut [] s u ∧
      StatusSame s u) ∧
    (s.run = .running → s.memRead s.pc.toNat = .ok op →
      if s.pc.toNat + opcodeOperands op < 256 then
        ∃ u, stepWith t s = .next u ∧ u.pc.toNat = s.pc.toNat + 1 ∧ u.err = s.err ∧ u.run = .running
      else stepWith t s = .next s.afterOutOfBounds)

/-! ### Who writes what: rules over every step -/

/-- R54: during a run only PUSH writes memory, and only the byte at the decremented stack pointer. -/
def Obligations.OnlyPushWritesMemory : Prop :=
  ∀ (t : OpcodeTable) (s u : State) (a : Nat), stepWith t s = .next u → u.memRead a ≠ s.memRead a →
    s.memRead s.pc.toNat = .ok (t .push) ∧ a = (s.reg 7 - 1).toNat

/-- R166: FL changes only by CMP. -/
def Obligations.OnlyCmpWritesFl : Prop :=
  ∀ (t : OpcodeTable) (s u : State), stepWith t s = .next u → u.fl ≠ s.fl → s.memRead s.pc.toNat = .ok (t .cmp)

/-- R29: `out` is empty at construction, and only PRN appends to it, one byte, the named register's. -/
def Obligations.OnlyPrnEmits : Prop :=
  (∀ initRegs initMem, (State.construct initRegs initMem).out = []) ∧
  ∀ (t : OpcodeTable) (s u : State), stepWith t s = .next u → u.out ≠ s.out →
    s.memRead s.pc.toNat = .ok (t .prn) ∧
    ∃ j : Fin 8, s.memRead (s.pc.toNat + 1) = .ok (BitVec.ofNat 8 j) ∧ u.out = s.out ++ [s.reg j]

/-- R20: a register is written only through a register operand byte that names it, or, register 7, by PUSH and POP. -/
def Obligations.RegisterWritesAreNamed : Prop :=
  ∀ (t : OpcodeTable) (s u : State) (j : Fin 8), stepWith t s = .next u → u.reg j ≠ s.reg j →
    (s.memRead (s.pc.toNat + 1) = .ok (BitVec.ofNat 8 j) ∧
      ∃ m ∈ [Mnemonic.ldi, .pop, .add, .sub, .mul], s.memRead s.pc.toNat = .ok (t m)) ∨
    (j = 7 ∧ ∃ m ∈ [Mnemonic.push, .pop], s.memRead s.pc.toNat = .ok (t m))

/-- R29, R35: the output stream is a history and no storage: with another history, a step does the same and emits the same. -/
def Obligations.OutputHistoryIsUnread : Prop :=
  ∀ (t : OpcodeTable) (s u : State) (o : List Byte), stepWith t s = .next u →
    ∃ emitted, u.out = s.out ++ emitted ∧ stepWith t { s with out := o } = .next { u with out := o ++ emitted }

/-- R27: the run state leaves Running only by HLT, with err unchanged, or by a fault, with err OutOfBounds. -/
def Obligations.OnlyHltOrFaultHalts : Prop :=
  ∀ (t : OpcodeTable) (s u : State), s.run = .running → stepWith t s = .next u → u.run = .halted →
    (s.memRead s.pc.toNat = .ok (t .hlt) ∧ u.err = s.err) ∨ u.err = some .outOfBounds

/-! ### The run loop (spec/10_state.md R36, spec/40_sequencer.md R80) -/

/-- Once a run has halted, more steps change nothing: its end does not depend on the bound (R80, R89; the bound is the
model's, log entry 6). -/
def Obligations.RunEndIsStable : Prop :=
  ∀ (n m : Nat) (s u : State), n ≤ m → runLoop n s = .next u → u.run = .halted → runLoop m s = .next u

/-- R36, R13: a run from a state that meets the invariant returns None or OutOfBounds, and nothing else. -/
def Obligations.RunReturnsNoneOrOutOfBounds : Prop :=
  ∀ (n : Nat) (s : State) (e : ErrorStatus), s.Inv → runReturn n s = some e → e = none ∨ e = some .outOfBounds

/-- The run loop is the host's repetition of the step (R80). It holds because a step of a Halted machine answers its own
state, which is the model's choice (log entry 4). -/
def Obligations.RunLoopIsRepeatedStep : Prop :=
  ∀ (n : Nat) (s : State), Host.Core.run Sys2Proof.core n s = runLoop n s

/-- R93: a run need not end. A JMP whose register holds its own address steps to the same state, so RUN never returns. -/
def Obligations.JumpToItselfNeverReturns : Prop :=
  ∀ (rA : Byte) (s : State) (h : rA.toNat < 8), s.run = .running → BytesAt s s.pc.toNat (encode (.jmp rA)) →
    (s.reg ⟨rA.toNat, h⟩).toNat = s.pc.toNat → step s = .next s ∧ ∀ n, runReturn n s = none
end

