-- ==== Sys2Proof/Laws/State.lean ====
section
/-! SUPPORT. One lemma per field per update of State, so that no proof unfolds a record update. -/

namespace Sys2Proof.Machine

@[simp] theorem State.setReg_mem (s : State) (i : Fin Config.numRegs) (v : Byte) : (s.setReg i v).mem = s.mem := rfl
@[simp] theorem State.setReg_regs (s : State) (i : Fin Config.numRegs) (v : Byte) : (s.setReg i v).regs = s.regs.set i v := rfl
@[simp] theorem State.setReg_pc (s : State) (i : Fin Config.numRegs) (v : Byte) : (s.setReg i v).pc = s.pc := rfl
@[simp] theorem State.setReg_fl (s : State) (i : Fin Config.numRegs) (v : Byte) : (s.setReg i v).fl = s.fl := rfl
@[simp] theorem State.setReg_run (s : State) (i : Fin Config.numRegs) (v : Byte) : (s.setReg i v).run = s.run := rfl
@[simp] theorem State.setReg_err (s : State) (i : Fin Config.numRegs) (v : Byte) : (s.setReg i v).err = s.err := rfl
@[simp] theorem State.setReg_out (s : State) (i : Fin Config.numRegs) (v : Byte) : (s.setReg i v).out = s.out := rfl

@[simp] theorem State.setSp_mem (s : State) (v : Byte) : (s.setSp v).mem = s.mem := rfl
@[simp] theorem State.setSp_regs (s : State) (v : Byte) : (s.setSp v).regs = s.regs.set Config.spIndex v := rfl
@[simp] theorem State.setSp_pc (s : State) (v : Byte) : (s.setSp v).pc = s.pc := rfl
@[simp] theorem State.setSp_fl (s : State) (v : Byte) : (s.setSp v).fl = s.fl := rfl
@[simp] theorem State.setSp_run (s : State) (v : Byte) : (s.setSp v).run = s.run := rfl
@[simp] theorem State.setSp_err (s : State) (v : Byte) : (s.setSp v).err = s.err := rfl
@[simp] theorem State.setSp_out (s : State) (v : Byte) : (s.setSp v).out = s.out := rfl

@[simp] theorem State.setPc_mem (s : State) (p : PcWord) : (s.setPc p).mem = s.mem := rfl
@[simp] theorem State.setPc_regs (s : State) (p : PcWord) : (s.setPc p).regs = s.regs := rfl
@[simp] theorem State.setPc_pc (s : State) (p : PcWord) : (s.setPc p).pc = p := rfl
@[simp] theorem State.setPc_fl (s : State) (p : PcWord) : (s.setPc p).fl = s.fl := rfl
@[simp] theorem State.setPc_run (s : State) (p : PcWord) : (s.setPc p).run = s.run := rfl
@[simp] theorem State.setPc_err (s : State) (p : PcWord) : (s.setPc p).err = s.err := rfl
@[simp] theorem State.setPc_out (s : State) (p : PcWord) : (s.setPc p).out = s.out := rfl

@[simp] theorem State.advance_mem (s : State) (n : Nat) : (s.advance n).mem = s.mem := rfl
@[simp] theorem State.advance_regs (s : State) (n : Nat) : (s.advance n).regs = s.regs := rfl
@[simp] theorem State.advance_pc (s : State) (n : Nat) : (s.advance n).pc = s.pc + BitVec.ofNat 9 n := rfl
@[simp] theorem State.advance_fl (s : State) (n : Nat) : (s.advance n).fl = s.fl := rfl
@[simp] theorem State.advance_run (s : State) (n : Nat) : (s.advance n).run = s.run := rfl
@[simp] theorem State.advance_err (s : State) (n : Nat) : (s.advance n).err = s.err := rfl
@[simp] theorem State.advance_out (s : State) (n : Nat) : (s.advance n).out = s.out := rfl

@[simp] theorem State.setFl_mem (s : State) (v : Byte) : (s.setFl v).mem = s.mem := rfl
@[simp] theorem State.setFl_regs (s : State) (v : Byte) : (s.setFl v).regs = s.regs := rfl
@[simp] theorem State.setFl_pc (s : State) (v : Byte) : (s.setFl v).pc = s.pc := rfl
@[simp] theorem State.setFl_fl (s : State) (v : Byte) : (s.setFl v).fl = v := rfl
@[simp] theorem State.setFl_run (s : State) (v : Byte) : (s.setFl v).run = s.run := rfl
@[simp] theorem State.setFl_err (s : State) (v : Byte) : (s.setFl v).err = s.err := rfl
@[simp] theorem State.setFl_out (s : State) (v : Byte) : (s.setFl v).out = s.out := rfl

@[simp] theorem State.emit_mem (s : State) (v : Byte) : (s.emit v).mem = s.mem := rfl
@[simp] theorem State.emit_regs (s : State) (v : Byte) : (s.emit v).regs = s.regs := rfl
@[simp] theorem State.emit_pc (s : State) (v : Byte) : (s.emit v).pc = s.pc := rfl
@[simp] theorem State.emit_fl (s : State) (v : Byte) : (s.emit v).fl = s.fl := rfl
@[simp] theorem State.emit_run (s : State) (v : Byte) : (s.emit v).run = s.run := rfl
@[simp] theorem State.emit_err (s : State) (v : Byte) : (s.emit v).err = s.err := rfl
@[simp] theorem State.emit_out (s : State) (v : Byte) : (s.emit v).out = s.out ++ [v] := rfl

@[simp] theorem State.halt_mem (s : State) : (s.halt).mem = s.mem := rfl
@[simp] theorem State.halt_regs (s : State) : (s.halt).regs = s.regs := rfl
@[simp] theorem State.halt_pc (s : State) : (s.halt).pc = s.pc := rfl
@[simp] theorem State.halt_fl (s : State) : (s.halt).fl = s.fl := rfl
@[simp] theorem State.halt_run (s : State) : (s.halt).run = .halted := rfl
@[simp] theorem State.halt_err (s : State) : (s.halt).err = s.err := rfl
@[simp] theorem State.halt_out (s : State) : (s.halt).out = s.out := rfl

@[simp] theorem State.takeError_mem (s : State) (e : ErrorKind) : (s.takeError e).mem = s.mem := rfl
@[simp] theorem State.takeError_regs (s : State) (e : ErrorKind) : (s.takeError e).regs = s.regs := rfl
@[simp] theorem State.takeError_pc (s : State) (e : ErrorKind) : (s.takeError e).pc = s.pc := rfl
@[simp] theorem State.takeError_fl (s : State) (e : ErrorKind) : (s.takeError e).fl = s.fl := rfl
@[simp] theorem State.takeError_run (s : State) (e : ErrorKind) : (s.takeError e).run = .halted := rfl
@[simp] theorem State.takeError_err (s : State) (e : ErrorKind) : (s.takeError e).err = some e := rfl
@[simp] theorem State.takeError_out (s : State) (e : ErrorKind) : (s.takeError e).out = s.out := rfl

@[simp] theorem State.setMem_mem (s : State) (m : Memory) : (s.setMem m).mem = m := rfl
@[simp] theorem State.setMem_regs (s : State) (m : Memory) : (s.setMem m).regs = s.regs := rfl
@[simp] theorem State.setMem_pc (s : State) (m : Memory) : (s.setMem m).pc = s.pc := rfl
@[simp] theorem State.setMem_fl (s : State) (m : Memory) : (s.setMem m).fl = s.fl := rfl
@[simp] theorem State.setMem_run (s : State) (m : Memory) : (s.setMem m).run = s.run := rfl
@[simp] theorem State.setMem_err (s : State) (m : Memory) : (s.setMem m).err = s.err := rfl
@[simp] theorem State.setMem_out (s : State) (m : Memory) : (s.setMem m).out = s.out := rfl

/-! ### Reading a register after each update -/

theorem State.reg_setReg (s : State) (i j : Fin Config.numRegs) (v : Byte) :
    (s.setReg i v).reg j = if i = j then v else s.reg j := by
  simp only [State.reg, State.setReg, Fin.getElem_fin, Vector.getElem_set, Fin.ext_iff]

@[simp] theorem State.reg_setReg_same (s : State) (i : Fin Config.numRegs) (v : Byte) : (s.setReg i v).reg i = v := by
  simp [State.reg_setReg]

theorem State.reg_setReg_other (s : State) {i j : Fin Config.numRegs} (v : Byte) (h : j ≠ i) :
    (s.setReg i v).reg j = s.reg j := by
  simp [State.reg_setReg, h.symm]

@[simp] theorem State.reg_setMem (s : State) (m : Memory) (j : Fin Config.numRegs) : (s.setMem m).reg j = s.reg j := rfl
@[simp] theorem State.reg_setPc (s : State) (p : PcWord) (j : Fin Config.numRegs) : (s.setPc p).reg j = s.reg j := rfl
@[simp] theorem State.reg_advance (s : State) (n : Nat) (j : Fin Config.numRegs) : (s.advance n).reg j = s.reg j := rfl
@[simp] theorem State.reg_setFl (s : State) (v : Byte) (j : Fin Config.numRegs) : (s.setFl v).reg j = s.reg j := rfl
@[simp] theorem State.reg_emit (s : State) (v : Byte) (j : Fin Config.numRegs) : (s.emit v).reg j = s.reg j := rfl
@[simp] theorem State.reg_halt (s : State) (j : Fin Config.numRegs) : (s.halt).reg j = s.reg j := rfl
@[simp] theorem State.reg_takeError (s : State) (e : ErrorKind) (j : Fin Config.numRegs) : (s.takeError e).reg j = s.reg j := rfl

@[simp] theorem State.sp_setSp (s : State) (v : Byte) : (s.setSp v).sp = v := State.reg_setReg_same _ _ _

/-- Two states with equal registers, read one by one, have equal register files. -/
theorem State.regs_eq_of_reg {s t : State} (h : ∀ j, t.reg j = s.reg j) : t.regs = s.regs := by
  apply Vector.ext
  intro k hk
  exact h ⟨k, hk⟩

/-! ### Reading a memory byte after each update that leaves memory alone -/

@[simp] theorem State.memRead_setReg (s : State) (i : Fin Config.numRegs) (v : Byte) (a : Nat) : (s.setReg i v).memRead a = s.memRead a := rfl
@[simp] theorem State.memRead_setSp (s : State) (v : Byte) (a : Nat) : (s.setSp v).memRead a = s.memRead a := rfl
@[simp] theorem State.memRead_setPc (s : State) (p : PcWord) (a : Nat) : (s.setPc p).memRead a = s.memRead a := rfl
@[simp] theorem State.memRead_advance (s : State) (n : Nat) (a : Nat) : (s.advance n).memRead a = s.memRead a := rfl
@[simp] theorem State.memRead_setFl (s : State) (v : Byte) (a : Nat) : (s.setFl v).memRead a = s.memRead a := rfl
@[simp] theorem State.memRead_emit (s : State) (v : Byte) (a : Nat) : (s.emit v).memRead a = s.memRead a := rfl
@[simp] theorem State.memRead_halt (s : State) (a : Nat) : (s.halt).memRead a = s.memRead a := rfl
@[simp] theorem State.memRead_takeError (s : State) (e : ErrorKind) (a : Nat) : (s.takeError e).memRead a = s.memRead a := rfl

end Sys2Proof.Machine
end

