-- ==== Sys2Proof/Laws/Memory.lean ====
section
/-! SUPPORT. The laws of memory: what a read gives after a write, and that every memory operation keeps the canonical form. -/

namespace Sys2Proof.Machine

theorem Memory.read_erase_same (m : Memory) (a : Nat) : (m.erase a).read a = unlistedByte := by
  induction m with
  | nil => rfl
  | cons c rest ih =>
    rcases c with ⟨b, w⟩
    by_cases h : b = a
    · simpa [Memory.erase, h] using ih
    · simpa [Memory.erase, Memory.read, h] using ih

theorem Memory.read_erase_other (m : Memory) {a b : Nat} (h : b ≠ a) : (m.erase a).read b = m.read b := by
  induction m with
  | nil => rfl
  | cons c rest ih =>
    rcases c with ⟨d, w⟩
    by_cases hd : d = a
    · subst hd
      simpa [Memory.erase, Memory.read, h.symm] using ih
    · by_cases hb : d = b
      · simp [Memory.erase, Memory.read, hb, h]
      · simpa [Memory.erase, Memory.read, hd, hb] using ih

theorem Memory.read_insert_other (m : Memory) {a b : Nat} (v : Byte) (h : b ≠ a) : (m.insert a v).read b = m.read b := by
  induction m with
  | nil => simp [Memory.insert, Memory.read, h.symm]
  | cons c rest ih =>
    rcases c with ⟨d, w⟩
    by_cases hd : a < d
    · simp [Memory.insert, Memory.read, hd, h.symm]
    · rw [Memory.insert, if_neg hd]
      simp only [Memory.read, ih]

theorem Memory.read_insert_same (m : Memory) {a : Nat} (v : Byte) (h : ∀ c ∈ m, c.1 ≠ a) : (m.insert a v).read a = v := by
  induction m with
  | nil => simp [Memory.insert, Memory.read]
  | cons c rest ih =>
    rcases c with ⟨d, w⟩
    have hd : d ≠ a := h (d, w) (by simp)
    have hr := ih fun c hc => h c (by simp [hc])
    by_cases hl : a < d <;> simp [Memory.insert, Memory.read, hl, hd, hr]

theorem Memory.mem_erase {m : Memory} {a : Nat} {c : Host.Cell} : c ∈ m.erase a ↔ c ∈ m ∧ c.1 ≠ a := by
  simp [Memory.erase]

/-- A read after a write to the same address gives the value written. -/
theorem Memory.read_write_same (m : Memory) (a : Nat) (v : Byte) : (m.write a v).read a = v := by
  unfold Memory.write
  split
  · next h => rw [Memory.read_erase_same, h]
  · exact Memory.read_insert_same _ _ fun c hc => (Memory.mem_erase.mp hc).2

/-- A write leaves every other address alone. -/
theorem Memory.read_write_other (m : Memory) {a b : Nat} (v : Byte) (h : b ≠ a) : (m.write a v).read b = m.read b := by
  unfold Memory.write
  split
  · exact Memory.read_erase_other m h
  · rw [Memory.read_insert_other _ _ h, Memory.read_erase_other m h]

/-! ### The canonical form -/

theorem Memory.wf_iff (m : Memory) :
    m.wf = true ↔ m.Pairwise (fun c d => c.1 < d.1) ∧ ∀ c ∈ m, c.1 < Config.memSize ∧ c.2 ≠ unlistedByte := by
  simp [Memory.wf]

theorem Memory.wf_nil : Memory.wf [] = true := by decide

theorem Memory.wf_erase {m : Memory} (a : Nat) (h : m.wf = true) : (m.erase a).wf = true := by
  rw [Memory.wf_iff] at h ⊢
  exact ⟨h.1.sublist List.filter_sublist, fun c hc => h.2 c (Memory.mem_erase.mp hc).1⟩

theorem Memory.mem_insert {m : Memory} {a : Nat} {v : Byte} {c : Host.Cell} (h : c ∈ m.insert a v) : c = (a, v) ∨ c ∈ m := by
  induction m with
  | nil => simpa [Memory.insert] using h
  | cons d rest ih =>
    rcases d with ⟨b, w⟩
    by_cases hb : a < b
    · simpa [Memory.insert, hb] using h
    · simp only [Memory.insert, hb, if_false, List.mem_cons] at h ⊢
      rcases h with rfl | h
      · exact .inr (.inl rfl)
      · exact (ih h).imp_right .inr

theorem Memory.pairwise_insert {m : Memory} {a : Nat} {v : Byte} (ha : ∀ c ∈ m, c.1 ≠ a)
    (h : m.Pairwise fun c d => c.1 < d.1) : (m.insert a v).Pairwise fun c d => c.1 < d.1 := by
  induction m with
  | nil => simp [Memory.insert]
  | cons d rest ih =>
    rcases d with ⟨b, w⟩
    rw [List.pairwise_cons] at h
    have hb : b ≠ a := ha (b, w) (by simp)
    by_cases hl : a < b
    · simp only [Memory.insert, hl, if_true, List.pairwise_cons]
      refine ⟨fun c hc => ?_, h.1, h.2⟩
      rcases List.mem_cons.mp hc with rfl | hc
      · exact hl
      · exact lt_trans hl (h.1 c hc)
    · simp only [Memory.insert, hl, if_false, List.pairwise_cons]
      refine ⟨fun c hc => ?_, ih (fun c hc => ha c (by simp [hc])) h.2⟩
      rcases Memory.mem_insert hc with rfl | hc
      · show b < a
        omega
      · exact h.1 c hc

/-- A write within memory keeps the canonical form. -/
theorem Memory.wf_write {m : Memory} {a : Nat} (v : Byte) (ha : a < Config.memSize) (h : m.wf = true) : (m.write a v).wf = true := by
  unfold Memory.write
  split
  · exact Memory.wf_erase a h
  · next hv =>
    have he := (Memory.wf_iff _).mp (Memory.wf_erase a h)
    rw [Memory.wf_iff]
    refine ⟨Memory.pairwise_insert (fun c hc => (Memory.mem_erase.mp hc).2) he.1, fun c hc => ?_⟩
    rcases Memory.mem_insert hc with rfl | hc
    · exact ⟨ha, hv⟩
    · exact he.2 c hc

/-- Writing bytes within memory keeps the canonical form. -/
theorem Memory.wf_writeBytes {m : Memory} {a : Nat} {bytes : List Byte} (ha : a + bytes.length ≤ Config.memSize)
    (h : m.wf = true) : (m.writeBytes a bytes).wf = true := by
  induction bytes generalizing m a with
  | nil => exact h
  | cons v rest ih =>
    simp only [List.length_cons] at ha
    exact ih (by omega) (Memory.wf_write v (by omega) h)

/-- Writing bytes leaves every address outside them alone. -/
theorem Memory.read_writeBytes_other {m : Memory} {a b : Nat} {bytes : List Byte} (hb : b < a ∨ a + bytes.length ≤ b) :
    (m.writeBytes a bytes).read b = m.read b := by
  induction bytes generalizing m a with
  | nil => rfl
  | cons v rest ih =>
    simp only [List.length_cons] at hb
    rw [Memory.writeBytes, ih (by omega), Memory.read_write_other _ _ (by omega)]

/-- A byte of a written run reads as written. -/
theorem Memory.read_writeBytes_at {m : Memory} {a k : Nat} {bytes : List Byte} (hk : k < bytes.length) :
    (m.writeBytes a bytes).read (a + k) = bytes[k] := by
  induction bytes generalizing m a k with
  | nil => simp at hk
  | cons v rest ih =>
    cases k with
    | zero => rw [Memory.writeBytes, Memory.read_writeBytes_other (by omega)]; exact Memory.read_write_same _ _ _
    | succ k =>
      have := ih (m := m.write a v) (a := a + 1) (k := k) (by simpa using hk)
      simpa [Memory.writeBytes, Nat.add_assoc, Nat.add_comm 1 k] using this

/-- Two canonical memories that read alike at every address are the same list. -/
theorem Memory.eq_of_read {m m' : Memory} (h : m.wf = true) (h' : m'.wf = true) (hr : ∀ a, m.read a = m'.read a) : m = m' := by
  have above : ∀ {a : Nat} {l : Memory}, (∀ c ∈ l, a < c.1) → l.read a = unlistedByte := by
    intro a l hl
    induction l with
    | nil => rfl
    | cons c rest ih =>
      have hc : a < c.1 := hl c (by simp)
      simp only [Memory.read, show c.1 ≠ a by omega, if_false]
      exact ih fun d hd => hl d (by simp [hd])
  induction m generalizing m' with
  | nil =>
    cases m' with
    | nil => rfl
    | cons c rest =>
      have := hr c.1
      simp only [Memory.read, if_true] at this
      exact absurd this.symm (((Memory.wf_iff _).mp h').2 c (by simp)).2
  | cons c rest ih =>
    obtain ⟨hp, hv⟩ := (Memory.wf_iff _).mp h
    cases m' with
    | nil =>
      have := hr c.1
      simp only [Memory.read, if_true] at this
      exact absurd this (hv c (by simp)).2
    | cons d rest' =>
      obtain ⟨hp', hv'⟩ := (Memory.wf_iff _).mp h'
      rw [List.pairwise_cons] at hp hp'
      have hcd : c.1 = d.1 := by
        rcases lt_trichotomy c.1 d.1 with hl | he | hl
        · have := hr c.1
          rw [above (l := d :: rest') (by
            intro x hx
            rcases List.mem_cons.mp hx with rfl | hx
            · exact hl
            · exact lt_trans hl (hp'.1 x hx))] at this
          simp only [Memory.read, if_true] at this
          exact absurd this (hv c (by simp)).2
        · exact he
        · have := hr d.1
          rw [above (l := c :: rest) (by
            intro x hx
            rcases List.mem_cons.mp hx with rfl | hx
            · exact hl
            · exact lt_trans hl (hp.1 x hx))] at this
          simp only [Memory.read, if_true] at this
          exact absurd this.symm (hv' d (by simp)).2
      have hval : c.2 = d.2 := by
        have := hr c.1
        simpa [Memory.read, hcd] using this
      have hrest : rest = rest' := by
        refine ih ((Memory.wf_iff _).mpr ⟨hp.2, fun x hx => hv x (by simp [hx])⟩)
          ((Memory.wf_iff _).mpr ⟨hp'.2, fun x hx => hv' x (by simp [hx])⟩) fun a => ?_
        by_cases ha : c.1 = a
        · rw [above (l := rest) fun x hx => ha ▸ hp.1 x hx, above (l := rest') fun x hx => ha ▸ hcd ▸ hp'.1 x hx]
        · have := hr a
          simpa [Memory.read, ha, hcd ▸ ha] using this
      rw [hrest, Prod.ext hcd hval]

/-- The memory of the machine right after reset is in canonical form. -/
theorem State.reset_mem_wf : State.reset.mem.wf = true := Memory.wf_nil

end Sys2Proof.Machine
end

