-- ==== Sys2Proof/Laws/Ops.lean ====
section
/-! SUPPORT. One specification per shared operation: everything it can answer, so that no proof unfolds it. -/

namespace Sys2Proof.Machine

/-! ### Numbers -/

/-- `wrap8` of a natural number is its residue modulo 256. -/
theorem wrap8_natCast (n : Nat) : wrap8 n = BitVec.ofNat 8 n := by
  simp [wrap8]

/-- The wrapped exact sum is the sum of the bytes. -/
theorem wrap8_add (a b : Byte) : wrap8 (a.toNat + b.toNat) = a + b := by
  rw [← Nat.cast_add, wrap8_natCast]
  apply BitVec.eq_of_toNat_eq
  simp

/-- The wrapped exact difference is the difference of the bytes. -/
theorem wrap8_sub (a b : Byte) : wrap8 (a.toNat - b.toNat) = a - b := by
  have ha := a.isLt
  have hb := b.isLt
  apply BitVec.eq_of_toNat_eq
  rw [wrap8, BitVec.toNat_ofInt, BitVec.toNat_sub]
  omega

/-- The wrapped exact product is the product of the bytes. -/
theorem wrap8_mul (a b : Byte) : wrap8 (a.toNat * b.toNat) = a * b := by
  rw [← Nat.cast_mul, wrap8_natCast]
  apply BitVec.eq_of_toNat_eq
  simp

/-- Zero extension keeps the number. -/
theorem toNat_zext9 (v : Byte) : (zext9 v).toNat = v.toNat := by
  have := v.isLt
  simp only [zext9, BitVec.toNat_setWidth]
  omega

/-- A byte is a memory address. -/
theorem byte_lt_memSize (v : Byte) : v.toNat < Config.memSize := v.isLt

/-! ### Memory access -/

theorem State.memRead_of_lt (s : State) {a : Nat} (h : a < Config.memSize) : s.memRead a = .ok (s.mem.read a) := by
  simp [State.memRead, h]

theorem State.memRead_of_ge (s : State) {a : Nat} (h : Config.memSize ≤ a) : s.memRead a = .error .outOfBounds := by
  simp [State.memRead, Nat.not_lt.mpr h]

theorem State.memRead_eq_ok {s : State} {a : Nat} {v : Byte} :
    s.memRead a = .ok v ↔ a < Config.memSize ∧ s.mem.read a = v := by
  by_cases h : a < Config.memSize <;> simp [State.memRead, h]

theorem State.memWrite_of_lt (s : State) {a : Nat} (v : Byte) (h : a < Config.memSize) :
    s.memWrite a v = .ok (s.setMem (s.mem.write a v)) := by
  simp [State.memWrite, h]

theorem State.memWrite_of_ge (s : State) {a : Nat} (v : Byte) (h : Config.memSize ≤ a) :
    s.memWrite a v = .error .outOfBounds := by
  simp [State.memWrite, Nat.not_lt.mpr h]

/-- Reading bytes in rising order answers them all where the last lies in memory, and OutOfBounds otherwise. -/
theorem State.memReadMany_eq (s : State) (a n : Nat) :
    s.memReadMany a n =
      if a + n ≤ Config.memSize ∨ n = 0 then .ok ((List.range n).map fun k => s.mem.read (a + k))
      else .error .outOfBounds := by
  induction n generalizing a with
  | zero => simp [State.memReadMany]
  | succ n ih =>
    rw [State.memReadMany, ih]
    by_cases ha : a < Config.memSize
    · rw [State.memRead_of_lt s ha]
      by_cases hn : a + (n + 1) ≤ Config.memSize
      · have h1 : a + 1 + n ≤ Config.memSize ∨ n = 0 := .inl (by omega)
        simp [hn, List.range_succ_eq_map, Function.comp_def, Nat.add_assoc, Nat.add_comm 1, bind, Except.bind, pure,
          Except.pure]
      · have h1 : ¬(a + 1 + n ≤ Config.memSize ∨ n = 0) := by omega
        simp [h1, hn, bind, Except.bind]
    · have hn : ¬(a + (n + 1) ≤ Config.memSize ∨ n + 1 = 0) := by omega
      rw [State.memRead_of_ge s (Nat.not_lt.mp ha), if_neg hn]
      rfl

/-- Fetch answers the opcode byte and its operand bytes where all of them lie in memory, and OutOfBounds otherwise. -/
theorem fetch_eq (s : State) :
    fetch s =
      if s.pc.toNat < Config.memSize ∧ s.pc.toNat + opcodeOperands (s.mem.read s.pc.toNat) < Config.memSize then
        .ok (s.mem.read s.pc.toNat ::
          (List.range (opcodeOperands (s.mem.read s.pc.toNat))).map fun k => s.mem.read (s.pc.toNat + 1 + k))
      else .error .outOfBounds := by
  by_cases hp : s.pc.toNat < Config.memSize
  · rw [fetch, State.memRead_of_lt s hp]
    simp only [bind, Except.bind, State.memReadMany_eq]
    by_cases hn : s.pc.toNat + opcodeOperands (s.mem.read s.pc.toNat) < Config.memSize
    · have h1 : s.pc.toNat + 1 + opcodeOperands (s.mem.read s.pc.toNat) ≤ Config.memSize := by omega
      simp only [h1, hn, hp, true_or, and_self, if_true]
      rfl
    · have h1 : ¬(s.pc.toNat + 1 + opcodeOperands (s.mem.read s.pc.toNat) ≤ Config.memSize ∨
          opcodeOperands (s.mem.read s.pc.toNat) = 0) := by omega
      rw [if_neg h1, if_neg fun h => hn h.2]
  · rw [fetch, State.memRead_of_ge s (Nat.not_lt.mp hp), if_neg fun h => hp h.1]
    rfl

/-! ### Register operands -/

theorem regIndex_of_lt {r : Byte} (h : r.toNat < Config.numRegs) : regIndex r = .ok ⟨r.toNat, h⟩ := by
  simp [regIndex, h]

theorem regIndex_of_ge {r : Byte} (h : Config.numRegs ≤ r.toNat) : regIndex r = .error .outOfBounds := by
  simp [regIndex, Nat.not_lt.mpr h]

/-! ### The end of a step -/

@[simp] theorem State.finish_ok (s t : State) : s.finish (.ok t) = .next t := rfl

@[simp] theorem State.finish_error (s : State) (e : ErrorKind) : s.finish (.error e) = .next (s.takeError e) := rfl

theorem State.takeError_outOfBounds (s : State) : s.takeError .outOfBounds = s.afterOutOfBounds := rfl

/-! ### Stack pointer -/

theorem State.decrementSp_eq (s : State) : s.decrementSp = s.setReg Config.spIndex (s.sp - 1) := by
  have h := wrap8_sub s.sp 1
  rw [State.decrementSp, State.setSp, ← h]
  rfl

theorem State.incrementSp_eq (s : State) : s.incrementSp = s.setReg Config.spIndex (s.sp + 1) := by
  have h := wrap8_add s.sp 1
  rw [State.incrementSp, State.setSp, ← h]
  rfl

/-- SP always holds an address in memory, so PUSH and POP never raise OutOfBounds for their access (R120). -/
theorem State.stackAddress_lt (s : State) : s.stackAddress < Config.memSize := byte_lt_memSize s.sp

/-! ### ALU and branches -/

@[simp] theorem alu_add (a b : Byte) : alu .add a b = .ok (a + b) := by rw [alu, wrap8_add]

@[simp] theorem alu_sub (a b : Byte) : alu .sub a b = .ok (a - b) := by rw [alu, wrap8_sub]

@[simp] theorem alu_mul (a b : Byte) : alu .mul a b = .ok (a * b) := by rw [alu, wrap8_mul]

@[simp] theorem alu_cmp (a b : Byte) : alu .cmp a b = .ok (compareFlags a b) := rfl

/-- The flags of a compare are one of the three one-hot values. -/
theorem compareFlags_mem (a b : Byte) : compareFlags a b ∈ [flEqual, flGreater, flLess] := by
  unfold compareFlags
  split
  · simp
  · split <;> simp

/-- With a valid register, a control transfer answers the target or the fall-through. -/
theorem branch_of_lt (taken : Bool) {rA : Byte} (s : State) (h : rA.toNat < Config.numRegs) :
    branch taken rA s = .ok (if taken then s.setPc (zext9 (s.reg ⟨rA.toNat, h⟩)) else s.advance 2) := by
  rw [branch, regIndex_of_lt h]
  rfl

/-- With an invalid register, a control transfer raises OutOfBounds, taken or not. -/
theorem branch_of_ge (taken : Bool) {rA : Byte} (s : State) (h : Config.numRegs ≤ rA.toNat) :
    branch taken rA s = .error .outOfBounds := by
  rw [branch, regIndex_of_ge h]
  rfl

/-- With valid registers, the ALU's result is written to the first. -/
theorem aluWriteBack_of_lt {tag : AluTag} {rA rB : Byte} {s : State} {v : Byte} (ha : rA.toNat < Config.numRegs)
    (hb : rB.toNat < Config.numRegs) (hv : alu tag (s.reg ⟨rA.toNat, ha⟩) (s.reg ⟨rB.toNat, hb⟩) = .ok v) :
    aluWriteBack tag rA rB s = .ok ((s.setReg ⟨rA.toNat, ha⟩ v).advance 3) := by
  rw [aluWriteBack, regIndex_of_lt ha, regIndex_of_lt hb]
  simp [bind, Except.bind, pure, Except.pure, hv]

/-- With an invalid register, the shared ALU form raises OutOfBounds. -/
theorem aluWriteBack_of_ge (tag : AluTag) {rA rB : Byte} (s : State)
    (h : Config.numRegs ≤ rA.toNat ∨ Config.numRegs ≤ rB.toNat) : aluWriteBack tag rA rB s = .error .outOfBounds := by
  by_cases ha : rA.toNat < Config.numRegs
  · rw [aluWriteBack, regIndex_of_lt ha, regIndex_of_ge (h.resolve_left (Nat.not_le.mpr ha))]
    rfl
  · rw [aluWriteBack, regIndex_of_ge (Nat.not_lt.mp ha)]
    rfl

end Sys2Proof.Machine
end

