-- ==== Sys2Proof/Laws/PerInstr.lean ====
section
/-! SUPPORT. Families of statements about instructions as syntax, one lemma per constructor. -/

namespace Sys2Proof.Laws

/-- EncodingLayout: whatever the table, an instruction's bytes are one opcode byte and then its operand bytes in order, and
its register operands are among these (R60, R63, R71). -/
def EncodingLayout.Statement (i : Instr) : Prop :=
  ∀ t : OpcodeTable, (∃ op, encodeWith t i = op :: i.operands) ∧ ∀ r ∈ i.registerOperands, r ∈ i.operands

theorem EncodingLayout.hlt : EncodingLayout.Statement .hlt :=
  fun _ => ⟨⟨_, rfl⟩, fun _ h => h⟩

theorem EncodingLayout.ldi (rA imm8 : Byte) : EncodingLayout.Statement (.ldi rA imm8) :=
  fun _ => ⟨⟨_, rfl⟩, fun _ h => List.mem_cons.mpr (.inl (List.mem_singleton.mp h))⟩

theorem EncodingLayout.prn (rA : Byte) : EncodingLayout.Statement (.prn rA) :=
  fun _ => ⟨⟨_, rfl⟩, fun _ h => h⟩

theorem EncodingLayout.push (rA : Byte) : EncodingLayout.Statement (.push rA) :=
  fun _ => ⟨⟨_, rfl⟩, fun _ h => h⟩

theorem EncodingLayout.pop (rA : Byte) : EncodingLayout.Statement (.pop rA) :=
  fun _ => ⟨⟨_, rfl⟩, fun _ h => h⟩

theorem EncodingLayout.cmp (rA rB : Byte) : EncodingLayout.Statement (.cmp rA rB) :=
  fun _ => ⟨⟨_, rfl⟩, fun _ h => h⟩

theorem EncodingLayout.jmp (rA : Byte) : EncodingLayout.Statement (.jmp rA) :=
  fun _ => ⟨⟨_, rfl⟩, fun _ h => h⟩

theorem EncodingLayout.jeq (rA : Byte) : EncodingLayout.Statement (.jeq rA) :=
  fun _ => ⟨⟨_, rfl⟩, fun _ h => h⟩

theorem EncodingLayout.jne (rA : Byte) : EncodingLayout.Statement (.jne rA) :=
  fun _ => ⟨⟨_, rfl⟩, fun _ h => h⟩

theorem EncodingLayout.add (rA rB : Byte) : EncodingLayout.Statement (.add rA rB) :=
  fun _ => ⟨⟨_, rfl⟩, fun _ h => h⟩

theorem EncodingLayout.sub (rA rB : Byte) : EncodingLayout.Statement (.sub rA rB) :=
  fun _ => ⟨⟨_, rfl⟩, fun _ h => h⟩

theorem EncodingLayout.mul (rA rB : Byte) : EncodingLayout.Statement (.mul rA rB) :=
  fun _ => ⟨⟨_, rfl⟩, fun _ h => h⟩

theorem EncodingLayout.unknown (op : Byte) : EncodingLayout.Statement (.unknown op) :=
  fun _ => ⟨⟨_, rfl⟩, fun _ h => h⟩

end Sys2Proof.Laws
end

