-- ==== Sys2Proof/Laws/Step.lean ====
section
/-! SUPPORT. What an instruction answers where its registers are valid, in the model's own operations, and the inversion of
one step: everything it can be. -/

namespace Sys2Proof.Machine

/-! ### Instructions with valid registers -/

theorem exec_hlt (s : State) : exec .hlt s = .next (s.halt.advance 1) := rfl

theorem exec_unknown (op : Byte) (s : State) : exec (.unknown op) s = .next (s.advance 1) := rfl

theorem exec_ldi {rA : Byte} (imm8 : Byte) (s : State) (h : rA.toNat < Config.numRegs) :
    exec (.ldi rA imm8) s = .next ((s.setReg ⟨rA.toNat, h⟩ imm8).advance 3) := by
  rw [exec, execLdi, regIndex_of_lt h]
  rfl

theorem exec_prn {rA : Byte} (s : State) (h : rA.toNat < Config.numRegs) :
    exec (.prn rA) s = .next ((s.emit (s.reg ⟨rA.toNat, h⟩)).advance 2) := by
  rw [exec, execPrn, regIndex_of_lt h]
  rfl

theorem exec_push {rA : Byte} (s : State) (h : rA.toNat < Config.numRegs) :
    exec (.push rA) s =
      .next ((s.decrementSp.setMem
        (s.mem.write s.decrementSp.stackAddress (s.decrementSp.reg ⟨rA.toNat, h⟩))).advance 2) := by
  rw [exec, execPush, regIndex_of_lt h]
  simp only [bind, Except.bind, State.memWrite_of_lt _ _ (byte_lt_memSize _), State.stackAddress]
  rfl

theorem exec_pop {rA : Byte} (s : State) (h : rA.toNat < Config.numRegs) :
    exec (.pop rA) s =
      .next ((s.setReg ⟨rA.toNat, h⟩ (s.mem.read s.stackAddress)).incrementSp.advance 2) := by
  rw [exec, execPop, regIndex_of_lt h]
  simp only [bind, Except.bind, State.stackAddress, State.memRead_of_lt _ (byte_lt_memSize _)]
  rfl

theorem exec_cmp {rA rB : Byte} (s : State) (ha : rA.toNat < Config.numRegs) (hb : rB.toNat < Config.numRegs) :
    exec (.cmp rA rB) s =
      .next ((s.setFl (compareFlags (s.reg ⟨rA.toNat, ha⟩) (s.reg ⟨rB.toNat, hb⟩))).advance 3) := by
  rw [exec, execCmp, regIndex_of_lt ha, regIndex_of_lt hb]
  rfl

theorem exec_jmp {rA : Byte} (s : State) (h : rA.toNat < Config.numRegs) :
    exec (.jmp rA) s = .next (s.setPc (zext9 (s.reg ⟨rA.toNat, h⟩))) := by
  rw [exec, execJmp, branch_of_lt _ s h]
  rfl

theorem exec_jeq {rA : Byte} (s : State) (h : rA.toNat < Config.numRegs) :
    exec (.jeq rA) s =
      .next (if s.isEqual then s.setPc (zext9 (s.reg ⟨rA.toNat, h⟩)) else s.advance 2) := by
  rw [exec, execJeq, branch_of_lt _ s h]
  rfl

theorem exec_jne {rA : Byte} (s : State) (h : rA.toNat < Config.numRegs) :
    exec (.jne rA) s =
      .next (if !s.isEqual then s.setPc (zext9 (s.reg ⟨rA.toNat, h⟩)) else s.advance 2) := by
  rw [exec, execJne, branch_of_lt _ s h]
  rfl

theorem exec_add {rA rB : Byte} (s : State) (ha : rA.toNat < Config.numRegs) (hb : rB.toNat < Config.numRegs) :
    exec (.add rA rB) s =
      .next ((s.setReg ⟨rA.toNat, ha⟩ (s.reg ⟨rA.toNat, ha⟩ + s.reg ⟨rB.toNat, hb⟩)).advance 3) := by
  rw [exec, execAdd, aluWriteBack_of_lt ha hb (alu_add _ _), State.finish_ok]

theorem exec_sub {rA rB : Byte} (s : State) (ha : rA.toNat < Config.numRegs) (hb : rB.toNat < Config.numRegs) :
    exec (.sub rA rB) s =
      .next ((s.setReg ⟨rA.toNat, ha⟩ (s.reg ⟨rA.toNat, ha⟩ - s.reg ⟨rB.toNat, hb⟩)).advance 3) := by
  rw [exec, execSub, aluWriteBack_of_lt ha hb (alu_sub _ _), State.finish_ok]

theorem exec_mul {rA rB : Byte} (s : State) (ha : rA.toNat < Config.numRegs) (hb : rB.toNat < Config.numRegs) :
    exec (.mul rA rB) s =
      .next ((s.setReg ⟨rA.toNat, ha⟩ (s.reg ⟨rA.toNat, ha⟩ * s.reg ⟨rB.toNat, hb⟩)).advance 3) := by
  rw [exec, execMul, aluWriteBack_of_lt ha hb (alu_mul _ _), State.finish_ok]

/-! ### One step -/

/-- A step is one of four: Halted, and nothing happens; the fetch raises; the fetched bytes hold no whole instruction; or
the decoded instruction executes, with the opcode byte standing at pc and its bytes in memory. -/
theorem stepWith_cases (t : OpcodeTable) (s : State) :
    (s.run = .halted ∧ stepWith t s = .next s) ∨
    (s.run = .running ∧ fetch s = .error .outOfBounds ∧ stepWith t s = .next s.afterOutOfBounds) ∨
    (s.run = .running ∧ ∃ bytes e, fetch s = .ok bytes ∧ decodeWith t bytes = .error e ∧
      stepWith t s = .refused .truncatedInstruction) ∨
    (s.run = .running ∧ ∃ bytes i rest, fetch s = .ok bytes ∧ decodeWith t bytes = .ok (i, rest) ∧
      stepWith t s = exec i s) := by
  cases hr : s.run with
  | halted => exact .inl ⟨rfl, by rw [stepWith, hr]⟩
  | running =>
    right
    cases hf : fetch s with
    | error e =>
      have he : e = .outOfBounds := by
        rw [fetch_eq] at hf
        split at hf <;> simp_all
      subst he
      exact .inl ⟨rfl, rfl, by rw [stepWith, hr]; simp only [hf]; rfl⟩
    | ok bytes =>
      right
      cases hd : decodeWith t bytes with
      | error e => exact .inl ⟨rfl, bytes, e, rfl, hd, by rw [stepWith, hr]; simp only [hf, hd]⟩
      | ok a => exact .inr ⟨rfl, bytes, a.1, a.2, rfl, hd, by rw [stepWith, hr]; simp only [hf, hd]⟩

end Sys2Proof.Machine
end

