-- ==== Sys2Proof/Tests/Slice0.lean ====
section
/-! SUPPORT. The model's own tests. Every expected result is the spec's: the vectors of spec/95_test_vectors.md (their ids are
given), the examples of the instruction rules, or R64's table. The second half holds, for each statement with hypotheses, a
concrete input that meets them. -/

namespace Sys2Proof.Tests

open Sys2Proof.Machine

/-! ### Helpers -/

/-- A Running state at `pc` with the given bytes from `pc` on. -/
def code (pc : PcWord) (bytes : List Byte) : State :=
  { State.reset with pc := pc, mem := Memory.writeBytes [] pc.toNat bytes }

/-- The next state of an outcome. -/
def after (o : Host.Outcome State Fault Refusal) : Option State :=
  match o with
  | .next s => some s
  | .fault _ | .refused _ => none

/-- An OPCODE table other than the default: ADD and MUL exchanged, and HLT at 0x3F. -/
def otherTable : OpcodeTable
  | .hlt => 0x3F#8
  | .add => 0xA2#8
  | .mul => 0xA0#8
  | m => opcode m

/-! ### Well-formedness: the one check refuses an unknown opcode that is a mnemonic's byte -/

theorem test_wf_unknown_ill : (Instr.unknown 0x82#8).wf = false := by decide
theorem test_wf_unknown_well : (Instr.unknown 0xFF#8).wf = true := by decide
theorem test_wf_register_of_any_byte : (Instr.push 255#8).wf = true := by decide

/-! ### Decoding words written out from R64 and R63 -/

theorem test_decode_hlt : decode [0b00000001#8] = .ok (.hlt, []) := by decide
theorem test_decode_ldi : decode [0b10000010#8, 0b00000000#8, 0b00001000#8] = .ok (.ldi 0#8 8#8, []) := by decide
theorem test_decode_prn : decode [0b01000111#8, 0b00000111#8] = .ok (.prn 7#8, []) := by decide
theorem test_decode_push : decode [0b01000101#8, 0b00000001#8] = .ok (.push 1#8, []) := by decide
theorem test_decode_pop : decode [0b01000110#8, 0b00001001#8] = .ok (.pop 9#8, []) := by decide
theorem test_decode_cmp : decode [0b10100111#8, 0b00000010#8, 0b00000011#8] = .ok (.cmp 2#8 3#8, []) := by decide
theorem test_decode_jmp : decode [0b01010100#8, 0b00000011#8] = .ok (.jmp 3#8, []) := by decide
theorem test_decode_jeq : decode [0b01010101#8, 0b00000010#8] = .ok (.jeq 2#8, []) := by decide
theorem test_decode_jne : decode [0b01010110#8, 0b11111111#8] = .ok (.jne 255#8, []) := by decide
theorem test_decode_add : decode [0b10100000#8, 0b00000111#8, 0b00000001#8] = .ok (.add 7#8 1#8, []) := by decide
theorem test_decode_sub : decode [0b10100001#8, 0b00000100#8, 0b00000101#8] = .ok (.sub 4#8 5#8, []) := by decide
theorem test_decode_mul : decode [0b10100010#8, 0b00000001#8, 0b00000000#8] = .ok (.mul 1#8 0#8, []) := by decide
/-- SEQ-4: an unknown opcode is one byte whatever its bits 7:6 say. -/
theorem test_decode_unknown :
    decode [0xA3#8, 0x05#8, 0x06#8] = .ok (.unknown 0xA3#8, [0x05#8, 0x06#8]) := by decide
theorem test_decode_nothing : decode [] = .error .noOpcode := by decide
theorem test_decode_truncated : decode [0x82#8, 0x00#8] = .error (.missingOperand .ldi) := by decide

/-! ### Words of the opcode table: byte 0 is bits 7:0 -/

theorem test_table_word_ldi : decodeTableWord 24 0x080082 = some (.ldi 0#8 8#8) := by decide
theorem test_table_word_no_operand_bits : decodeTableWord 8 0x45 = some (.push 0#8) := by decide
theorem test_table_word_unknown : decodeTableWord 8 0xC0 = some (.unknown 0xC0#8) := by decide
theorem test_fetch_word_runs :
    (after (step (State.reset.withFetchWord 24 0x080082))).map (fun s => (s.reg 0, s.pc)) = some (8#8, 3#9) := by decide
theorem test_fetch_word_unknown_runs :
    (after (step (State.reset.withFetchWord 8 0xC0))).map (fun s => (s.run, s.pc)) = some (.running, 1#9) := by decide

/-! ### Sequencer (L2.1) -/

/-- SEQ-6. -/
theorem test_seq_6 : (after (step (code 252#9 [0xC0#8]))).map (fun s => (s.pc, s.run)) = some (253#9, .running) := by decide
/-- SEQ-7. -/
theorem test_seq_7 :
    (after (step (code 253#9 [0xC0#8]))).map (fun s => (s.pc, s.run, s.err)) =
      some (253#9, .halted, some .outOfBounds) := by decide
/-- SEQ-10. -/
theorem test_seq_10 :
    (after (step (code 256#9 []))).map (fun s => (s.pc, s.run, s.err)) = some (256#9, .halted, some .outOfBounds) := by decide
/-- SEQ-14. -/
theorem test_seq_14 : after (step (code 0#9 [0x00#8]).halt) = some (code 0#9 [0x00#8]).halt := by decide

/-! ### Instructions, one step each -/

/-- SEQ-8: HLT at 255 leaves pc = 256. -/
theorem test_hlt_at_255 :
    (after (step (code 255#9 [0x01#8]))).map (fun s => (s.run, s.err, s.pc)) = some (.halted, none, 256#9) := by decide
/-- HLT-1. -/
theorem test_hlt_keeps_fl : (after (exec .hlt (State.reset.setFl 4#8))).map (·.fl) = some 4#8 := by decide
/-- LDI-6. -/
theorem test_ldi_6 : (after (exec (.ldi 2#8 255#8) State.reset)).map (·.reg 2) = some 255#8 := by decide
/-- LDI-4. -/
theorem test_ldi_4 :
    (after (step (code 0#9 [0x82#8, 0x08#8, 0x05#8]))).map (fun s => (s.regs, s.err, s.pc)) =
      some (State.reset.regs, some .outOfBounds, 0#9) := by decide
/-- PRN-3. -/
theorem test_prn_3 :
    (after (exec (.prn 1#8) ((State.reset.emit 3#8).setReg 1 255#8))).map (·.out) = some [3#8, 255#8] := by decide
/-- PRN-4. -/
theorem test_prn_4 : (after (exec (.prn 255#8) (State.reset.emit 3#8))).map (·.out) = some [3#8] := by decide
/-- STK-3: PUSH R7 stores the decremented SP. -/
theorem test_stk_3 :
    (after (exec (.push 7#8) State.reset)).map (fun s => (s.sp, s.mem.read 0xF3)) = some (0xF3#8, 0xF3#8) := by decide
/-- STK-6: POP R7 ends with the popped byte plus 1. -/
theorem test_stk_6 :
    (after (exec (.pop 7#8) (((code 0x20#9 [0x10#8]).setSp 0x20#8)))).map (·.sp) = some 0x11#8 := by decide
/-- STK-5: SP wraps. -/
theorem test_stk_5 :
    (after (exec (.pop 0#8) ((code 0xFF#9 [0x42#8]).setSp 0xFF#8))).map (fun s => (s.reg 0, s.sp)) =
      some (0x42#8, 0x00#8) := by decide
/-- CMP-6: unsigned. -/
theorem test_cmp_6 :
    (after (exec (.cmp 0#8 1#8) ((State.reset.setReg 0 0x80#8).setReg 1 0x7F#8))).map (·.fl) = some 0x02#8 := by decide
/-- CMP-8: no stale bit. -/
theorem test_cmp_8 : (after (exec (.cmp 2#8 2#8) (State.reset.setFl 4#8))).map (·.fl) = some 0x01#8 := by decide
/-- SEQ-13: a two-byte instruction ending at 255. -/
theorem test_seq_13 : (after (step ((code 254#9 [0x54#8, 0x00#8]).setReg 0 7#8))).map (·.pc) = some 7#9 := by decide
/-- BR-2. -/
theorem test_br_2 : (after (exec (.jmp 0#8) (State.reset.setReg 0 0xFF#8))).map (·.pc) = some 255#9 := by decide
/-- BR-6: not taken after L. -/
theorem test_br_6 :
    (after (exec (.jeq 2#8) ((State.reset.setPc 12#9).setFl 0x04#8))).map (·.pc) = some 14#9 := by decide
/-- BR-12: the operand is checked even when not taken. -/
theorem test_br_12 :
    (after (exec (.jeq 8#8) ((State.reset.setPc 12#9).setFl 0x02#8))).map (fun s => (s.pc, s.err)) =
      some (12#9, some .outOfBounds) := by decide
/-- BR-10: taken with no CMP yet. -/
theorem test_br_10 :
    (after (exec (.jne 3#8) ((State.reset.setPc 20#9).setReg 3 12#8))).map (·.pc) = some 12#9 := by decide
/-- BR-11. -/
theorem test_br_11 :
    (after (exec (.jne 3#8) ((State.reset.setPc 20#9).setFl 0x01#8))).map (·.pc) = some 22#9 := by decide
/-- ALU-4. -/
theorem test_alu_4 :
    (after (exec (.add 0#8 1#8) ((State.reset.setReg 0 0xFF#8).setReg 1 0xFF#8))).map (·.reg 0) = some 0xFE#8 := by decide
/-- ALU-17: ADD moves the stack pointer. -/
theorem test_alu_17 : (after (exec (.add 7#8 1#8) (State.reset.setReg 1 2#8))).map (·.sp) = some 0xF6#8 := by decide
/-- ALU-7. -/
theorem test_alu_7 : (after (exec (.sub 0#8 1#8) (State.reset.setReg 1 0xFF#8))).map (·.reg 0) = some 0x01#8 := by decide
/-- ALU-16: FL unchanged by a zero result. -/
theorem test_alu_16 :
    (after (exec (.sub 0#8 0#8) ((State.reset.setReg 0 1#8).setFl 0x04#8))).map (fun s => (s.reg 0, s.fl)) =
      some (0#8, 0x04#8) := by decide
/-- ALU-15: the standard MUL, not the squaring one of C1. -/
theorem test_alu_15 :
    (after (exec (.mul 1#8 0#8) ((State.reset.setReg 0 9#8).setReg 1 3#8))).map (fun s => (s.reg 1, s.reg 0)) =
      some (27#8, 9#8) := by decide
/-- ALU-14. -/
theorem test_alu_14 :
    (after (exec (.mul 0#8 1#8) ((State.reset.setReg 0 0x10#8).setReg 1 0x11#8))).map (·.reg 0) = some 0x10#8 := by decide

/-! ### Load, inspection, fetch coherence -/

/-- LD-1. -/
theorem test_ld_1 : State.reset.load (List.replicate 257 0#8) = .error .outOfBounds :=
  if_pos (Nat.le_of_eq List.length_replicate.symm)
/-- LD-4. -/
theorem test_ld_4 :
    (launch (Vector.replicate 7 5#8) [] [0x82#8, 0x00#8, 0x08#8]).toOption.map
      (fun s => (s.mem.read 0, s.mem.read 2, s.sp, s.reg 3)) = some (0x82#8, 0x08#8, 0xF4#8, 5#8) := by decide
/-- R33. -/
theorem test_inspect_register_8 : State.reset.inspectReg 8 = .error .outOfBounds := by decide
/-- COH-2 (P5b): a PUSH over its own operand byte pushes the register it had fetched. -/
theorem test_push_own_operand :
    (after (step (((code 6#9 [0x45#8, 0x00#8]).setSp 8#8).setReg 0 9#8))).map (fun s => (s.mem.read 7, s.pc)) =
      some (9#8, 8#9) := by decide

/-! ### Witnesses: inputs that meet each statement's hypotheses, at the ends of their ranges -/

theorem witness_table_ok : otherTable.Ok := by
  refine ⟨?_, ?_⟩
  · intro m m'
    cases m <;> cases m' <;> decide
  · intro m
    cases m <;> decide

theorem witness_OpcodeMatchIsExact : otherTable.Ok ∧ otherTable .hlt = 0x3F#8 ∧ decodeOpcodeWith otherTable 0x01#8 = none :=
  ⟨witness_table_ok, by decide, by decide⟩

theorem witness_DecodeOfEncode :
    otherTable.Ok ∧ (Instr.ldi 8#8 255#8).wfFor otherTable = true ∧ (Instr.unknown 0x01#8).wfFor otherTable = true :=
  ⟨witness_table_ok, by decide, by decide⟩

theorem witness_EncodeOfDecode : decodeWith otherTable [0x3F#8, 0x01#8] = .ok (.hlt, [0x01#8]) := by decide

theorem witness_FetchedBytesAreOperands :
    otherTable.Ok ∧ [1#8, 255#8].length = opcodeOperands (otherTable .mul) ∧ ([] : List Byte).length = opcodeOperands (otherTable .hlt) :=
  ⟨witness_table_ok, by decide, by decide⟩

theorem witness_LoadWritesImageAtZero :
    256 < (List.replicate 257 0#8).length ∧ (List.replicate 256 0#8).length ≤ 256 ∧ ([] : List Byte).length ≤ 255 :=
  ⟨Nat.le_of_eq List.length_replicate.symm, Nat.le_of_eq List.length_replicate, by decide⟩

theorem witness_LaunchGivesResetTable : (List.replicate 256 7#8).length ≤ 256 ∧ ([] : List Byte).length ≤ 256 :=
  ⟨Nat.le_of_eq List.length_replicate, by decide⟩

theorem witness_LaunchRunsFirstInstruction :
    otherTable.Ok ∧ (Instr.unknown 0xC0#8).wfFor otherTable = true ∧
      (encodeWith otherTable (.unknown 0xC0#8) ++ List.replicate 255 0#8).length ≤ 256 :=
  ⟨witness_table_ok, by decide, Nat.le_of_eq (by rw [encodeWith, List.length_append, List.length_replicate]; rfl)⟩

theorem witness_ResetStateValues : (0 : Nat) < 256 ∧ (255 : Nat) < 256 := by decide

theorem witness_InspectReadsState :
    8 ≤ 8 ∧ 255 < 256 ∧ 256 ≤ 256 ∧ State.reset.err = none ∧ (State.reset.takeError .outOfBounds).err = some .outOfBounds ∧
      (State.reset.takeError .unsupportedOperation).err = some .unsupportedOperation := by decide

theorem witness_StepRunsDecodedInstruction :
    (code 253#9 [0x82#8, 0x07#8, 0xFF#8]).run = .running ∧
      fetch (code 253#9 [0x82#8, 0x07#8, 0xFF#8]) = .ok [0x82#8, 0x07#8, 0xFF#8] ∧
      decodeWith opcode [0x82#8, 0x07#8, 0xFF#8] = .ok (.ldi 7#8 255#8, []) := by decide

/-- The last place of each length, an unknown opcode with three operand bytes included. -/
theorem witness_EncodedInstructionRuns :
    otherTable.Ok ∧ BytesAt (code 253#9 [0xA0#8, 1#8, 2#8]) 253 (encodeWith otherTable (.mul 1#8 2#8)) ∧
      BytesAt (code 252#9 [0xC0#8]) 252 (encodeWith otherTable (.unknown 0xC0#8)) ∧ 252 + opcodeOperands 0xC0#8 < 256 := by
  refine ⟨witness_table_ok, ?_, ?_, by decide⟩
  · unfold BytesAt
    decide
  · unfold BytesAt
    decide

theorem witness_FetchIsBoundsChecked :
    256 ≤ (code 256#9 []).pc.toNat ∧ (code 253#9 [0xC0#8]).memRead 253 = .ok 0xC0#8 ∧ 256 ≤ 253 + opcodeOperands 0xC0#8 ∧
      (code 252#9 [0xC0#8]).memRead 252 = .ok 0xC0#8 ∧ 252 + opcodeOperands 0xC0#8 < 256 := by decide

theorem witness_RegisterOperandsAreChecked :
    8#8 ∈ (Instr.jeq 8#8).registerOperands ∧ 8 ≤ (8#8).toNat ∧ ∀ r ∈ (Instr.ldi 7#8 255#8).registerOperands, r.toNat < 8 := by
  decide

/-- A taken transfer, one not taken, HLT at the last address, and an unknown opcode. -/
theorem witness_PcAdvance :
    otherTable.Ok ∧ BytesAt (code 254#9 [0x54#8, 7#8]) 254 (encodeWith otherTable (.jmp 7#8)) ∧
      BytesAt (code 254#9 [0x55#8, 0#8]) 254 (encodeWith otherTable (.jeq 0#8)) ∧
      BytesAt (code 255#9 [0x3F#8]) 255 (encodeWith otherTable .hlt) ∧
      BytesAt (code 255#9 [0x00#8]) 255 (encodeWith otherTable (.unknown 0x00#8)) ∧ 255 + opcodeOperands 0x00#8 < 256 := by
  refine ⟨witness_table_ok, ?_, ?_, ?_, ?_, by decide⟩ <;>
  · unfold BytesAt
    decide

theorem witness_HaltedIsTerminal :
    (code 0#9 [0x82#8]).halt.run = .halted ∧ stepWith opcode (code 0#9 [0x82#8]).halt = .next (code 0#9 [0x82#8]).halt :=
  ⟨rfl, rfl⟩

theorem witness_FaultIsPrecise :
    (code 256#9 []).run = .running ∧ (code 256#9 []).err = none ∧
      (after (stepWith opcode (code 256#9 []))).map (·.err) = some (some .outOfBounds) := by decide

/-- One state for each site, and one for none. -/
theorem witness_OutOfBoundsSites :
    otherTable.Ok ∧ (after (stepWith otherTable (code 256#9 []))).map (·.err) = some (some .outOfBounds) ∧
      (after (stepWith otherTable (code 254#9 [0x82#8]))).map (·.err) = some (some .outOfBounds) ∧
      (after (stepWith otherTable (code 254#9 [0x47#8, 8#8]))).map (·.err) = some (some .outOfBounds) ∧
      (after (stepWith otherTable (code 254#9 [0x47#8, 7#8]))).map (·.err) = some none :=
  ⟨witness_table_ok, by decide, by decide, by decide, by decide⟩

theorem witness_UnsupportedOperationNeverRecorded :
    stepWith opcode (State.reset.takeError .unsupportedOperation) = .next (State.reset.takeError .unsupportedOperation) ∧
      (State.reset.takeError .unsupportedOperation).err = some .unsupportedOperation :=
  ⟨rfl, rfl⟩

theorem witness_StepAlwaysAnswersState : otherTable.Ok := witness_table_ok

/-- A state at the ends of the invariant: pc at 256, L set, a memory cell at 255. -/
theorem witness_StepKeepsInvariant :
    ((code 255#9 [0xAB#8]).setPc 256#9 |>.setFl 4#8).Inv ∧
      (after (stepWith opcode ((code 255#9 [0xAB#8]).setPc 256#9 |>.setFl 4#8))).isSome = true :=
  ⟨⟨by decide, by decide, by decide, fun h => absurd rfl h, .inl rfl⟩, by decide⟩

theorem witness_LaunchMeetsInvariant :
    Memory.wf [(3, 5#8), (255, 1#8)] = true ∧
      (launch (Vector.replicate 7 9#8) [(3, 5#8), (255, 1#8)] [0x01#8]).toOption.isSome = true := by decide

theorem witness_FlOneHotAfterCompare :
    (7#8).toNat < 8 ∧ (after (exec (.cmp 7#8 0#8) State.reset)).map (·.fl) = some 2#8 ∧
      (State.reset.setFl 2#8).fl ∈ [0b001#8, 0b010#8, 0b100#8] ∧
      (after (stepWith opcode (State.reset.setFl 2#8))).map (·.fl) = some 2#8 := by decide

theorem witness_HltHalts :
    otherTable.Ok ∧ (code 256#9 []).run = .running ∧ 256 ≤ (code 256#9 []).pc.toNat ∧
      exec .hlt State.reset = .next (State.reset.halt.advance 1) ∧
      stepWith otherTable (State.reset.halt.advance 1) = .next (State.reset.halt.advance 1) :=
  ⟨witness_table_ok, rfl, by decide, rfl, rfl⟩

/-- The hypotheses of `FetchFaults`: the opcode byte stands so high that its last operand byte would lie at 256. -/
theorem witness_FetchFaults :
    (∀ m ∈ [Mnemonic.prn, .push, .pop, .jmp, .jeq, .jne], (code 255#9 [opcode m]).run = .running ∧
      (code 255#9 [opcode m]).memRead 255 = .ok (opcode m) ∧ 256 ≤ 255 + m.operandCount) ∧
    ∀ m ∈ [Mnemonic.ldi, .cmp, .add, .sub, .mul], (code 254#9 [opcode m]).run = .running ∧
      (code 254#9 [opcode m]).memRead 254 = .ok (opcode m) ∧ 256 ≤ 254 + m.operandCount := by decide

theorem witness_LdiLoadsImmediate : otherTable.Ok ∧ 8 ≤ (8#8).toNat ∧ (7#8).toNat < 8 :=
  ⟨witness_table_ok, by decide, by decide⟩

theorem witness_PrnEmitsRegister : otherTable.Ok ∧ 8 ≤ (8#8).toNat ∧ (7#8).toNat < 8 :=
  ⟨witness_table_ok, by decide, by decide⟩

theorem witness_PushStoresRegister : otherTable.Ok ∧ 8 ≤ (255#8).toNat ∧ (7#8).toNat < 8 ∧ (6#8).toNat < 8 :=
  ⟨witness_table_ok, by decide, by decide, by decide⟩

theorem witness_PopLoadsRegister : otherTable.Ok ∧ 8 ≤ (8#8).toNat ∧ (7#8).toNat < 8 ∧ (0#8).toNat < 8 :=
  ⟨witness_table_ok, by decide, by decide, by decide⟩

theorem witness_PushThenPopRestores : (7#8).toNat < 8 ∧ (0#8).toNat < 8 := by decide

theorem witness_NestedPushPopRestores :
    (∀ r ∈ List.replicate 256 7#8, r.toNat < 8) ∧ (List.replicate 256 7#8).length ≤ 256 :=
  ⟨fun r h => by rw [List.eq_of_mem_replicate h]; decide, Nat.le_of_eq List.length_replicate⟩

/-- COH-1 (P5): the pushed byte is the very next opcode. -/
theorem witness_NextFetchSeesPush :
    (0#8).toNat < 8 ∧
      (after (exec (.push 0#8) (((code 6#9 [0x45#8, 0x00#8]).setSp 9#8).setReg 0 1#8))).map
        (fun u => (u.pc.toNat, u.stackAddress, (fetch u).toOption)) = some (8, 8, some [1#8]) := by decide

theorem witness_CmpSetsOneFlag :
    otherTable.Ok ∧ 8 ≤ (8#8).toNat ∧ (7#8).toNat < 8 ∧ (State.reset.reg 7).toNat = (State.reset.reg 7).toNat ∧
      (State.reset.reg 7).toNat > (State.reset.reg 0).toNat ∧ (State.reset.reg 0).toNat < (State.reset.reg 7).toNat :=
  ⟨witness_table_ok, by decide, by decide, rfl, by decide, by decide⟩

theorem witness_JmpTransfers : otherTable.Ok ∧ 8 ≤ (8#8).toNat ∧ (7#8).toNat < 8 :=
  ⟨witness_table_ok, by decide, by decide⟩

theorem witness_JeqBranchesOnEqual :
    otherTable.Ok ∧ 8 ≤ (8#8).toNat ∧ (7#8).toNat < 8 ∧ (State.reset.setFl 1#8).fl.getLsbD 0 = true ∧
      (State.reset.setFl 6#8).fl.getLsbD 0 = false :=
  ⟨witness_table_ok, by decide, by decide, by decide, by decide⟩

theorem witness_JneBranchesOnNotEqual :
    otherTable.Ok ∧ 8 ≤ (8#8).toNat ∧ (7#8).toNat < 8 ∧ (State.reset.setFl 6#8).fl.getLsbD 0 = false ∧
      (State.reset.setFl 1#8).fl.getLsbD 0 = true :=
  ⟨witness_table_ok, by decide, by decide, by decide, by decide⟩

/-- FL 0x02 and 0xFE agree on E alone. -/
theorem witness_DispatcherReadsOnlyEqual :
    Mnemonic.mul ≠ .jmp ∧ Mnemonic.mul ≠ .jeq ∧ Mnemonic.mul ≠ .jne ∧
      (0xFE#8).getLsbD 0 = (State.reset.setFl 2#8).fl.getLsbD 0 ∧
      (after (stepWith opcode (State.reset.setFl 2#8))).isSome = true := by decide

theorem witness_AddWraps : otherTable.Ok ∧ 8 ≤ (8#8).toNat ∧ (7#8).toNat < 8 ∧ (0#8).toNat < 8 :=
  ⟨witness_table_ok, by decide, by decide, by decide⟩

theorem witness_SubWraps : otherTable.Ok ∧ 8 ≤ (8#8).toNat ∧ (7#8).toNat < 8 ∧ (0#8).toNat < 8 :=
  ⟨witness_table_ok, by decide, by decide, by decide⟩

theorem witness_MulWraps : otherTable.Ok ∧ 8 ≤ (8#8).toNat ∧ (7#8).toNat < 8 ∧ (0#8).toNat < 8 :=
  ⟨witness_table_ok, by decide, by decide, by decide⟩

/-- The old HLT byte is unknown under the other table, at the last address; and one whose operand bytes pass the end. -/
theorem witness_UnknownSkipsOneByte :
    otherTable.Ok ∧ (∀ m, otherTable m ≠ 0x01#8) ∧ (code 255#9 [0x01#8]).memRead 255 = .ok 0x01#8 ∧
      255 + opcodeOperands 0x01#8 < 256 ∧ (∀ m, otherTable m ≠ 0xC0#8) ∧ (code 253#9 [0xC0#8]).memRead 253 = .ok 0xC0#8 ∧
      ¬253 + opcodeOperands 0xC0#8 < 256 := by
  refine ⟨witness_table_ok, ?_, by decide, by decide, ?_, by decide, by decide⟩ <;>
  · intro m
    cases m <;> decide

theorem witness_OnlyPushWritesMemory :
    (after (stepWith opcode (code 0#9 [0x45#8, 0x07#8]))).map (fun u => u.memRead 0xF3) = some (.ok 0xF3#8) ∧
      (code 0#9 [0x45#8, 0x07#8]).memRead 0xF3 = .ok 0x00#8 := by decide

theorem witness_OnlyCmpWritesFl :
    (after (stepWith opcode (code 0#9 [0xA7#8, 0x07#8, 0x00#8]))).map (·.fl) = some 2#8 ∧
      (code 0#9 [0xA7#8, 0x07#8, 0x00#8]).fl = 0#8 := by decide

theorem witness_OnlyPrnEmits :
    (after (stepWith opcode (code 254#9 [0x47#8, 0x07#8]))).map (·.out) = some [0xF4#8] ∧
      (code 254#9 [0x47#8, 0x07#8]).out = [] := by decide

theorem witness_RegisterWritesAreNamed :
    (after (stepWith opcode (code 253#9 [0x82#8, 0x00#8, 0x09#8]))).map (·.reg 0) = some 9#8 ∧
      (after (stepWith opcode (code 254#9 [0x45#8, 0x00#8]))).map (·.reg 7) = some 0xF3#8 := by decide

theorem witness_OutputHistoryIsUnread :
    (after (stepWith opcode (code 254#9 [0x47#8, 0x07#8]))).map (·.out) = some ([] ++ [0xF4#8]) := by decide

theorem witness_OnlyHltOrFaultHalts :
    (code 255#9 [0x01#8]).run = .running ∧
      (after (stepWith opcode (code 255#9 [0x01#8]))).map (fun u => (u.run, u.err)) = some (.halted, none) ∧
      (after (stepWith opcode (code 255#9 [0x47#8]))).map (fun u => (u.run, u.err)) =
        some (.halted, some .outOfBounds) := by decide

theorem witness_RunEndIsStable :
    1 ≤ 2 ∧ (after (runLoop 1 (code 255#9 [0x01#8]))).map (·.run) = some .halted := by decide

theorem witness_RunReturnsNoneOrOutOfBounds :
    ((code 255#9 [0x01#8]).Inv) ∧ runReturn 1 (code 255#9 [0x01#8]) = some none ∧
      runReturn 1 (code 255#9 [0x47#8]) = some (some .outOfBounds) :=
  ⟨⟨by decide, by decide, by decide, fun h => absurd rfl h, .inl rfl⟩, by decide, by decide⟩

/-- BR-3. -/
theorem witness_JumpToItselfNeverReturns :
    (1#8).toNat < 8 ∧ BytesAt ((code 5#9 [0x54#8, 0x01#8]).setReg 1 5#8) 5 (encode (.jmp 1#8)) ∧
      (((code 5#9 [0x54#8, 0x01#8]).setReg 1 5#8).reg 1).toNat = 5 := by
  refine ⟨by decide, ?_, by decide⟩
  unfold BytesAt
  decide

end Sys2Proof.Tests
end

section
/-! SUPPORT. The error status along a run (spec/10_state.md R13, R28, R36): what an instruction with an invalid register
answers, what one with valid registers leaves in `err`, and the induction over the run loop. -/

namespace Sys2Proof.Machine

/-! ### An instruction's two ways to end (R85, R91) -/

/-- An invalid register operand, whichever of the two it is, ends the instruction in the precise fault. -/
theorem exec_of_invalid_register {i : Instr} {r : Byte} (s : State) (hr : r ∈ i.registerOperands)
    (h : Config.numRegs ≤ r.toNat) : exec i s = .next s.afterOutOfBounds := by
  have writeBack {rA rB : Byte} (tag : AluTag) (hr : r ∈ [rA, rB]) :
      s.finish (aluWriteBack tag rA rB s) = .next s.afterOutOfBounds := by
    have hab : Config.numRegs ≤ rA.toNat ∨ Config.numRegs ≤ rB.toNat := by
      rcases List.mem_pair.mp hr with rfl | rfl
      · exact .inl h
      · exact .inr h
    rw [aluWriteBack_of_ge tag s hab]
    rfl
  cases i with
  | hlt => cases hr
  | unknown op => cases hr
  | ldi rA imm8 =>
    obtain rfl := List.mem_singleton.mp hr
    rw [exec, execLdi, regIndex_of_ge h]
    rfl
  | prn rA =>
    obtain rfl := List.mem_singleton.mp hr
    rw [exec, execPrn, regIndex_of_ge h]
    rfl
  | push rA =>
    obtain rfl := List.mem_singleton.mp hr
    rw [exec, execPush, regIndex_of_ge h]
    rfl
  | pop rA =>
    obtain rfl := List.mem_singleton.mp hr
    rw [exec, execPop, regIndex_of_ge h]
    rfl
  | jmp rA =>
    obtain rfl := List.mem_singleton.mp hr
    rw [exec, execJmp, branch_of_ge _ s h]
    rfl
  | jeq rA =>
    obtain rfl := List.mem_singleton.mp hr
    rw [exec, execJeq, branch_of_ge _ s h]
    rfl
  | jne rA =>
    obtain rfl := List.mem_singleton.mp hr
    rw [exec, execJne, branch_of_ge _ s h]
    rfl
  | cmp rA rB =>
    by_cases ha : rA.toNat < Config.numRegs
    · have hb : Config.numRegs ≤ rB.toNat := by
        rcases List.mem_pair.mp hr with rfl | rfl
        · exact absurd ha (Nat.not_lt.mpr h)
        · exact h
      rw [exec, execCmp, regIndex_of_lt ha, regIndex_of_ge hb]
      rfl
    · rw [exec, execCmp, regIndex_of_ge (Nat.not_lt.mp ha)]
      rfl
  | add rA rB => exact writeBack .add hr
  | sub rA rB => exact writeBack .sub hr
  | mul rA rB => exact writeBack .mul hr

/-- With valid register operands an instruction completes, and no handler writes `err`. -/
theorem exec_of_valid_registers {i : Instr} (s : State) (h : ∀ r ∈ i.registerOperands, r.toNat < Config.numRegs) :
    ∃ u, exec i s = .next u ∧ u.err = s.err := by
  cases i with
  | hlt => exact ⟨_, exec_hlt s, rfl⟩
  | unknown op => exact ⟨_, exec_unknown op s, rfl⟩
  | ldi rA imm8 => exact ⟨_, exec_ldi imm8 s (h rA (.head _)), rfl⟩
  | prn rA => exact ⟨_, exec_prn s (h rA (.head _)), rfl⟩
  | push rA => exact ⟨_, exec_push s (h rA (.head _)), rfl⟩
  | pop rA => exact ⟨_, exec_pop s (h rA (.head _)), rfl⟩
  | cmp rA rB => exact ⟨_, exec_cmp s (h rA (.head _)) (h rB (.tail _ (.head _))), rfl⟩
  | jmp rA => exact ⟨_, exec_jmp s (h rA (.head _)), rfl⟩
  | jeq rA => exact ⟨_, exec_jeq s (h rA (.head _)), by split <;> rfl⟩
  | jne rA => exact ⟨_, exec_jne s (h rA (.head _)), by split <;> rfl⟩
  | add rA rB => exact ⟨_, exec_add s (h rA (.head _)) (h rB (.tail _ (.head _))), rfl⟩
  | sub rA rB => exact ⟨_, exec_sub s (h rA (.head _)) (h rB (.tail _ (.head _))), rfl⟩
  | mul rA rB => exact ⟨_, exec_mul s (h rA (.head _)) (h rB (.tail _ (.head _))), rfl⟩

/-- An instruction leaves `err` alone or is the precise fault. -/
theorem exec_err {i : Instr} {s u : State} (h : exec i s = .next u) : u.err = s.err ∨ u = s.afterOutOfBounds := by
  by_cases hv : ∀ r ∈ i.registerOperands, r.toNat < Config.numRegs
  · obtain ⟨v, hx, he⟩ := exec_of_valid_registers s hv
    cases hx.symm.trans h
    exact .inl he
  · push Not at hv
    obtain ⟨r, hr, hge⟩ := hv
    cases (exec_of_invalid_register s hr hge).symm.trans h
    exact .inr rfl

/-- A step leaves `err` alone or is the precise fault. -/
theorem stepWith_err {t : OpcodeTable} {s u : State} (h : stepWith t s = .next u) :
    u.err = s.err ∨ u = s.afterOutOfBounds := by
  obtain ⟨-, hs⟩ | ⟨-, -, hs⟩ | ⟨-, _, _, -, -, hs⟩ | ⟨-, _, _, _, -, -, hs⟩ := stepWith_cases t s
  · cases hs.symm.trans h
    exact .inl rfl
  · cases hs.symm.trans h
    exact .inr rfl
  · cases hs.symm.trans h
  · exact exec_err (hs.symm.trans h)

/-! ### The run loop (R36, R80) -/

/-- What every step keeps, a run keeps, whatever its bound. -/
theorem runLoop_keeps {P : State → Prop} (hstep : ∀ s u, P s → step s = .next u → P u) {n : Nat} {s u : State}
    (hs : P s) (h : runLoop n s = .next u) : P u := by
  induction n generalizing s with
  | zero =>
    cases h
    exact hs
  | succ n ih =>
    rw [runLoop] at h
    split at h
    next =>
      cases h
      exact hs
    next =>
      split at h
      next v hv => exact ih (hstep s v hs hv) h
      next => cases h
      next => cases h

/-- A run returns an error status exactly where the loop ends in a Halted state that holds it. -/
theorem runReturn_eq_some {n : Nat} {s : State} {e : ErrorStatus} :
    runReturn n s = some e ↔ ∃ u, runLoop n s = .next u ∧ u.run = .halted ∧ u.err = e := by
  cases h : runLoop n s <;> simp [runReturn, h]

/-- Every step keeps the error status None or OutOfBounds (the clause `errKind` of the invariant). -/
theorem step_keeps_errKind {s u : State} (hs : s.err = none ∨ s.err = some .outOfBounds) (h : step s = .next u) :
    u.err = none ∨ u.err = some .outOfBounds := by
  rcases stepWith_err h with he | rfl
  · rwa [he]
  · exact .inr rfl

/-- Settles O53: the clause `errKind` of the invariant is kept by every step, so by the run loop, whose last state's `err`
is what the run returns. -/
theorem runReturnsNoneOrOutOfBounds : Obligations.RunReturnsNoneOrOutOfBounds := by
  intro n s e hinv hret
  obtain ⟨u, hloop, -, rfl⟩ := runReturn_eq_some.mp hret
  exact runLoop_keeps (P := fun v => v.err = none ∨ v.err = some .outOfBounds) (fun _ _ => step_keeps_errKind)
    hinv.errKind hloop

end Sys2Proof.Machine
end

section
/-! SUPPORT. What a step that answers a state did: the bytes it fetched stand in memory from pc on and encode the decoded
instruction (spec/40_sequencer.md R81 to R83), and that instruction completed or took the precise fault (R85, R91). -/

namespace Sys2Proof.Machine

/-! ### Bytes in memory and the fetch (R81, R82) -/

theorem BytesAt.nil (s : State) (a : Nat) : BytesAt s a [] := fun _ hk => absurd hk (Nat.not_lt_zero _)

theorem BytesAt.cons_iff {s : State} {a : Nat} {b : Byte} {rest : List Byte} :
    BytesAt s a (b :: rest) ↔ s.memRead a = .ok b ∧ BytesAt s (a + 1) rest := by
  have shift (k : Nat) : a + 1 + k = a + (k + 1) := by omega
  constructor
  · exact fun h => ⟨h 0 (Nat.zero_lt_succ _), fun k hk => shift k ▸ h (k + 1) (Nat.succ_lt_succ hk)⟩
  · rintro ⟨hb, hrest⟩ (_ | k) hk
    · exact hb
    · exact shift k ▸ hrest k (Nat.lt_of_succ_lt_succ hk)

theorem BytesAt.head?_eq {s : State} {a : Nat} {b : Byte} {bytes : List Byte} (h : BytesAt s a bytes)
    (hb : bytes.head? = some b) : s.memRead a = .ok b := by
  obtain ⟨rest, rfl⟩ := List.head?_eq_some_iff.mp hb
  exact (BytesAt.cons_iff.mp h).1

/-- A list of bytes stands in memory where a longer one does that begins with it. -/
theorem BytesAt.of_append {s : State} {a : Nat} {front back : List Byte} (h : BytesAt s a (front ++ back)) :
    BytesAt s a front := by
  intro k hk
  rw [h k (List.length_append ▸ Nat.lt_add_right _ hk), List.getElem_append_left hk]

/-- The last of the bytes lies below 256. -/
theorem BytesAt.add_length_le {s : State} {a : Nat} {bytes : List Byte} (h : BytesAt s a bytes) (hne : bytes ≠ []) :
    a + bytes.length ≤ Config.memSize := by
  have hpos := List.length_pos_iff.mpr hne
  have hlast := (State.memRead_eq_ok.mp (h (bytes.length - 1) (by omega))).1
  omega

theorem except_bind_eq_ok {ε α β : Type} {x : Except ε α} {f : α → Except ε β} {b : β} :
    x >>= f = .ok b ↔ ∃ a, x = .ok a ∧ f a = .ok b := by
  cases x <;> simp [bind, Except.bind]

theorem State.memReadMany_eq_ok {s : State} {a n : Nat} {bytes : List Byte} :
    s.memReadMany a n = .ok bytes ↔ bytes.length = n ∧ BytesAt s a bytes := by
  induction n generalizing a bytes with
  | zero =>
    rw [State.memReadMany, List.length_eq_zero_iff]
    constructor
    · rintro ⟨⟩
      exact ⟨rfl, BytesAt.nil s a⟩
    · rintro ⟨rfl, -⟩
      rfl
  | succ n ih =>
    simp only [State.memReadMany, except_bind_eq_ok, ih]
    constructor
    · rintro ⟨b, hb, rest, ⟨rfl, hrest⟩, ⟨⟩⟩
      exact ⟨rfl, BytesAt.cons_iff.mpr ⟨hb, hrest⟩⟩
    · rintro ⟨hlen, hbytes⟩
      obtain ⟨b, rest, rfl⟩ := List.exists_cons_of_length_eq_add_one hlen
      obtain ⟨hb, hrest⟩ := BytesAt.cons_iff.mp hbytes
      exact ⟨b, hb, rest, ⟨Nat.succ.inj hlen, hrest⟩, rfl⟩

/-- Fetch answers exactly the opcode byte at pc and the `op[7:6]` bytes after it. -/
theorem fetch_eq_ok {s : State} {bytes : List Byte} :
    fetch s = .ok bytes ↔ BytesAt s s.pc.toNat bytes ∧
      ∃ op operands, bytes = op :: operands ∧ operands.length = opcodeOperands op := by
  simp only [fetch, except_bind_eq_ok, State.memReadMany_eq_ok]
  constructor
  · rintro ⟨op, hop, operands, ⟨hlen, hoperands⟩, ⟨⟩⟩
    exact ⟨BytesAt.cons_iff.mpr ⟨hop, hoperands⟩, op, operands, rfl, hlen⟩
  · rintro ⟨hbytes, op, operands, rfl, hlen⟩
    obtain ⟨hop, hoperands⟩ := BytesAt.cons_iff.mp hbytes
    exact ⟨op, hop, operands, ⟨hlen, hoperands⟩, rfl⟩

/-! ### Decoded bytes (R65, R71, R83) -/

theorem takeOne_eq_ok {m : Mnemonic} {make : Byte → Instr} {bytes rest : List Byte} {i : Instr} :
    takeOne m make bytes = .ok (i, rest) ↔ ∃ a, bytes = a :: rest ∧ make a = i := by
  rcases bytes with _ | ⟨a, tail⟩ <;> simp [takeOne, and_comm]

theorem takeTwo_eq_ok {m : Mnemonic} {make : Byte → Byte → Instr} {bytes rest : List Byte} {i : Instr} :
    takeTwo m make bytes = .ok (i, rest) ↔ ∃ a b, bytes = a :: b :: rest ∧ make a b = i := by
  rcases bytes with _ | ⟨a, _ | ⟨b, tail⟩⟩ <;> simp [takeTwo, and_comm]

/-- The operand bytes a mnemonic's format takes are those of the instruction it answers. -/
theorem decodeOperands_eq_ok {m : Mnemonic} {bytes rest : List Byte} {i : Instr}
    (h : decodeOperands bytes m = .ok (i, rest)) : i.mnemonic = some m ∧ i.operands ++ rest = bytes := by
  cases m
  case hlt =>
    cases h
    exact ⟨rfl, rfl⟩
  case ldi | cmp | add | sub | mul =>
    obtain ⟨a, b, rfl, rfl⟩ := takeTwo_eq_ok.mp h
    exact ⟨rfl, rfl⟩
  all_goals
    obtain ⟨a, rfl, rfl⟩ := takeOne_eq_ok.mp h
    exact ⟨rfl, rfl⟩

/-- The bytes of a defined instruction are its mnemonic's opcode byte and its operands. -/
theorem encodeWith_of_mnemonic {t : OpcodeTable} {i : Instr} {m : Mnemonic} (h : i.mnemonic = some m) :
    encodeWith t i = t m :: i.operands := by
  cases i <;> cases h <;> rfl

/-- Bytes that decode begin with the encoding of what they decode to. -/
theorem encodeWith_of_decodeWith {t : OpcodeTable} {bytes rest : List Byte} {i : Instr}
    (h : decodeWith t bytes = .ok (i, rest)) : encodeWith t i ++ rest = bytes := by
  cases bytes with
  | nil => cases h
  | cons op tail =>
    rw [decodeWith] at h
    split at h
    next m hm =>
      have hop : t m = op := beq_iff_eq.mp (List.find?_some (p := fun m => t m == op) hm)
      obtain ⟨hmnemonic, hbytes⟩ := decodeOperands_eq_ok h
      rw [encodeWith_of_mnemonic hmnemonic, hop, List.cons_append, hbytes]
    next =>
      cases h
      rfl

theorem encodeWith_ne_nil (t : OpcodeTable) (i : Instr) : encodeWith t i ≠ [] := by
  cases i <;> exact List.cons_ne_nil _ _

/-- Where a defined instruction stands at an address, its opcode byte is there and its operands follow. -/
theorem BytesAt.opcode_operands {t : OpcodeTable} {s : State} {a : Nat} {i : Instr} {m : Mnemonic}
    (h : BytesAt s a (encodeWith t i)) (hm : i.mnemonic = some m) :
    s.memRead a = .ok (t m) ∧ BytesAt s (a + 1) i.operands :=
  BytesAt.cons_iff.mp (encodeWith_of_mnemonic hm ▸ h)

/-! ### What an instruction does when it completes -/

/-- `Completes i s u`: with valid register operands, instruction `i` executed in `s` leaves `u` (one constructor per
instruction, in the model's own operations). -/
inductive Completes : Instr → State → State → Prop
  | hlt (s : State) : Completes .hlt s (s.halt.advance 1)
  | unknown (op : Byte) (s : State) : Completes (.unknown op) s (s.advance 1)
  | ldi {rA : Byte} (imm8 : Byte) (s : State) (h : rA.toNat < Config.numRegs) :
      Completes (.ldi rA imm8) s ((s.setReg ⟨rA.toNat, h⟩ imm8).advance 3)
  | prn {rA : Byte} (s : State) (h : rA.toNat < Config.numRegs) :
      Completes (.prn rA) s ((s.emit (s.reg ⟨rA.toNat, h⟩)).advance 2)
  | push {rA : Byte} (s : State) (h : rA.toNat < Config.numRegs) :
      Completes (.push rA) s ((s.decrementSp.setMem
        (s.mem.write s.decrementSp.stackAddress (s.decrementSp.reg ⟨rA.toNat, h⟩))).advance 2)
  | pop {rA : Byte} (s : State) (h : rA.toNat < Config.numRegs) :
      Completes (.pop rA) s ((s.setReg ⟨rA.toNat, h⟩ (s.mem.read s.stackAddress)).incrementSp.advance 2)
  | cmp {rA rB : Byte} (s : State) (ha : rA.toNat < Config.numRegs) (hb : rB.toNat < Config.numRegs) :
      Completes (.cmp rA rB) s ((s.setFl (compareFlags (s.reg ⟨rA.toNat, ha⟩) (s.reg ⟨rB.toNat, hb⟩))).advance 3)
  | jmp {rA : Byte} (s : State) (h : rA.toNat < Config.numRegs) :
      Completes (.jmp rA) s (s.setPc (zext9 (s.reg ⟨rA.toNat, h⟩)))
  | jeq {rA : Byte} (s : State) (h : rA.toNat < Config.numRegs) :
      Completes (.jeq rA) s (s.setPc (if s.isEqual then zext9 (s.reg ⟨rA.toNat, h⟩) else s.pc + 2))
  | jne {rA : Byte} (s : State) (h : rA.toNat < Config.numRegs) :
      Completes (.jne rA) s (s.setPc (if s.isEqual then s.pc + 2 else zext9 (s.reg ⟨rA.toNat, h⟩)))
  | add {rA rB : Byte} (s : State) (ha : rA.toNat < Config.numRegs) (hb : rB.toNat < Config.numRegs) :
      Completes (.add rA rB) s
        ((s.setReg ⟨rA.toNat, ha⟩ (s.reg ⟨rA.toNat, ha⟩ + s.reg ⟨rB.toNat, hb⟩)).advance 3)
  | sub {rA rB : Byte} (s : State) (ha : rA.toNat < Config.numRegs) (hb : rB.toNat < Config.numRegs) :
      Completes (.sub rA rB) s
        ((s.setReg ⟨rA.toNat, ha⟩ (s.reg ⟨rA.toNat, ha⟩ - s.reg ⟨rB.toNat, hb⟩)).advance 3)
  | mul {rA rB : Byte} (s : State) (ha : rA.toNat < Config.numRegs) (hb : rB.toNat < Config.numRegs) :
      Completes (.mul rA rB) s
        ((s.setReg ⟨rA.toNat, ha⟩ (s.reg ⟨rA.toNat, ha⟩ * s.reg ⟨rB.toNat, hb⟩)).advance 3)

/-- The relation is the model's: an instruction that completes is executed to the state the relation names. -/
theorem Completes.exec_eq {i : Instr} {s u : State} (h : Completes i s u) : exec i s = .next u := by
  cases h with
  | hlt => exact exec_hlt s
  | unknown op => exact exec_unknown op s
  | ldi imm8 _ h => exact exec_ldi imm8 s h
  | prn _ h => exact exec_prn s h
  | push _ h => exact exec_push s h
  | pop _ h => exact exec_pop s h
  | cmp _ ha hb => exact exec_cmp s ha hb
  | jmp _ h => exact exec_jmp s h
  | jeq _ h =>
    rw [exec_jeq s h]
    split <;> rfl
  | jne _ h =>
    rw [exec_jne s h]
    cases s.isEqual <;> rfl
  | add _ ha hb => exact exec_add s ha hb
  | sub _ ha hb => exact exec_sub s ha hb
  | mul _ ha hb => exact exec_mul s ha hb

/-- With valid register operands every instruction completes. -/
theorem exists_completes {i : Instr} (s : State) (h : ∀ r ∈ i.registerOperands, r.toNat < Config.numRegs) :
    ∃ u, Completes i s u := by
  cases i with
  | hlt => exact ⟨_, .hlt s⟩
  | unknown op => exact ⟨_, .unknown op s⟩
  | ldi rA imm8 => exact ⟨_, .ldi imm8 s (h rA (.head _))⟩
  | prn rA => exact ⟨_, .prn s (h rA (.head _))⟩
  | push rA => exact ⟨_, .push s (h rA (.head _))⟩
  | pop rA => exact ⟨_, .pop s (h rA (.head _))⟩
  | cmp rA rB => exact ⟨_, .cmp s (h rA (.head _)) (h rB (.tail _ (.head _)))⟩
  | jmp rA => exact ⟨_, .jmp s (h rA (.head _))⟩
  | jeq rA => exact ⟨_, .jeq s (h rA (.head _))⟩
  | jne rA => exact ⟨_, .jne s (h rA (.head _))⟩
  | add rA rB => exact ⟨_, .add s (h rA (.head _)) (h rB (.tail _ (.head _)))⟩
  | sub rA rB => exact ⟨_, .sub s (h rA (.head _)) (h rB (.tail _ (.head _)))⟩
  | mul rA rB => exact ⟨_, .mul s (h rA (.head _)) (h rB (.tail _ (.head _)))⟩

/-- An instruction completes, or a register operand of 8 or more makes it the precise fault. -/
theorem exec_cases {i : Instr} {s u : State} (h : exec i s = .next u) :
    Completes i s u ∨ (∃ r ∈ i.registerOperands, Config.numRegs ≤ r.toNat) ∧ u = s.afterOutOfBounds := by
  by_cases hv : ∀ r ∈ i.registerOperands, r.toNat < Config.numRegs
  · obtain ⟨v, hc⟩ := exists_completes s hv
    cases hc.exec_eq.symm.trans h
    exact .inl hc
  · push Not at hv
    obtain ⟨r, hr, hge⟩ := hv
    cases (exec_of_invalid_register s hr hge).symm.trans h
    exact .inr ⟨⟨r, hr, hge⟩, rfl⟩

/-! ### The step (R89, R91, R92) -/

theorem stepWith_of_halted (t : OpcodeTable) {s : State} (h : s.run = .halted) : stepWith t s = .next s := by
  rw [stepWith, h]

theorem stepWith_of_fetch_error (t : OpcodeTable) {s : State} {e : ErrorKind} (hrun : s.run = .running)
    (hf : fetch s = .error e) : stepWith t s = .next (s.takeError e) := by
  simp only [stepWith, hrun, hf]

theorem stepWith_of_decodeWith {t : OpcodeTable} {s : State} {bytes rest : List Byte} {i : Instr}
    (hrun : s.run = .running) (hf : fetch s = .ok bytes) (hd : decodeWith t bytes = .ok (i, rest)) :
    stepWith t s = exec i s := by
  simp only [stepWith, hrun, hf, hd]

/-- A step that answers a state found the machine Halted and left it so; or took the precise fault; or completed an
instruction whose encoding stands at pc. -/
theorem stepWith_next_cases {t : OpcodeTable} {s u : State} (h : stepWith t s = .next u) :
    (s.run = .halted ∧ u = s) ∨ (s.run = .running ∧ u = s.afterOutOfBounds) ∨
      (s.run = .running ∧ ∃ i, BytesAt s s.pc.toNat (encodeWith t i) ∧ Completes i s u) := by
  obtain ⟨hrun, hs⟩ | ⟨hrun, -, hs⟩ | ⟨-, _, _, -, -, hs⟩ | ⟨hrun, bytes, i, rest, hf, hd, hs⟩ := stepWith_cases t s
  · cases hs.symm.trans h
    exact .inl ⟨hrun, rfl⟩
  · cases hs.symm.trans h
    exact .inr (.inl ⟨hrun, rfl⟩)
  · cases hs.symm.trans h
  · rcases exec_cases (hs.symm.trans h) with hc | ⟨-, rfl⟩
    · have hbytes := (fetch_eq_ok.mp hf).1
      rw [← encodeWith_of_decodeWith hd] at hbytes
      exact .inr (.inr ⟨hrun, i, hbytes.of_append, hc⟩)
    · exact .inr (.inl ⟨hrun, rfl⟩)

end Sys2Proof.Machine
end

section
/-! SUPPORT. What a completed instruction writes, one lemma per field of the state, each naming the one instruction that
writes it (spec/10_state.md). -/

namespace Sys2Proof.Machine

/-- Only CMP writes FL, and what it writes is one-hot (R140, R166). -/
theorem Completes.fl {i : Instr} {s u : State} (h : Completes i s u) :
    u.fl = s.fl ∨ i.mnemonic = some .cmp ∧ u.fl ∈ [flEqual, flGreater, flLess] := by
  cases h with
  | cmp => exact .inr ⟨rfl, compareFlags_mem _ _⟩
  | _ => exact .inl rfl

/-- Only HLT writes the run state (R27, R100). -/
theorem Completes.run {i : Instr} {s u : State} (h : Completes i s u) : u.run = s.run ∨ i.mnemonic = some .hlt := by
  cases h with
  | hlt => exact .inr rfl
  | _ => exact .inl rfl

/-- No instruction that completes writes `err` (R28). -/
theorem Completes.err {i : Instr} {s u : State} (h : Completes i s u) : u.err = s.err := by
  cases h <;> rfl

/-- Only PUSH writes memory, one byte at the decremented stack pointer (R54, R121). -/
theorem Completes.mem {i : Instr} {s u : State} (h : Completes i s u) :
    u.mem = s.mem ∨ i.mnemonic = some .push ∧ ∃ v, u.mem = s.mem.write s.decrementSp.stackAddress v := by
  cases h with
  | push => exact .inr ⟨rfl, _, rfl⟩
  | _ => exact .inl rfl

/-- Only PRN writes `out`, to which it appends the register's byte (R29, R102). -/
theorem Completes.out {i : Instr} {s u : State} (h : Completes i s u) :
    u.out = s.out ∨ ∃ (rA : Byte) (h : rA.toNat < Config.numRegs), i = .prn rA ∧
      u.out = s.out ++ [s.reg ⟨rA.toNat, h⟩] := by
  cases h with
  | prn _ h => exact .inr ⟨_, h, rfl, rfl⟩
  | _ => exact .inl rfl

/-- pc advances by the instruction's length or becomes a register's byte (R87). -/
theorem Completes.pc {i : Instr} {s u : State} (t : OpcodeTable) (h : Completes i s u) :
    u.pc = s.pc + BitVec.ofNat 9 (encodeWith t i).length ∨ ∃ v : Byte, u.pc = zext9 v := by
  cases h with
  | jmp => exact .inr ⟨_, rfl⟩
  | jeq =>
    rw [State.setPc_pc]
    split
    · exact .inr ⟨_, rfl⟩
    · exact .inl rfl
  | jne =>
    rw [State.setPc_pc]
    split
    · exact .inl rfl
    · exact .inr ⟨_, rfl⟩
  | _ => exact .inl rfl

/-- A changed register was the one written. -/
theorem State.eq_of_reg_setReg_ne {s : State} {i j : Fin Config.numRegs} {v : Byte}
    (h : (s.setReg i v).reg j ≠ s.reg j) : j = i := by
  by_contra hij
  exact h (State.reg_setReg_other s v hij)

/-- A register is written by the instruction whose first operand byte names it, or, register 7, by PUSH and POP (R20). -/
theorem Completes.reg {i : Instr} {s u : State} (h : Completes i s u) {j : Fin Config.numRegs}
    (hj : u.reg j ≠ s.reg j) :
    (i.operands.head? = some (BitVec.ofNat 8 j) ∧
      ∃ m ∈ [Mnemonic.ldi, .pop, .add, .sub, .mul], i.mnemonic = some m) ∨
    (j = 7 ∧ ∃ m ∈ [Mnemonic.push, .pop], i.mnemonic = some m) := by
  have named {rA : Byte} {h : rA.toNat < Config.numRegs} {v : Byte}
      (hj : (s.setReg ⟨rA.toNat, h⟩ v).reg j ≠ s.reg j) : some rA = some (BitVec.ofNat 8 j) := by
    rw [State.eq_of_reg_setReg_ne hj, BitVec.ofNat_toNat, BitVec.setWidth_eq]
  cases h with
  | ldi => exact .inl ⟨named hj, .ldi, by decide, rfl⟩
  | add => exact .inl ⟨named hj, .add, by decide, rfl⟩
  | sub => exact .inl ⟨named hj, .sub, by decide, rfl⟩
  | mul => exact .inl ⟨named hj, .mul, by decide, rfl⟩
  | push =>
    rw [State.reg_advance, State.reg_setMem, State.decrementSp_eq] at hj
    exact .inr ⟨State.eq_of_reg_setReg_ne hj, .push, by decide, rfl⟩
  | pop =>
    rw [State.reg_advance, State.incrementSp_eq] at hj
    by_cases h7 : j = Config.spIndex
    · exact .inr ⟨h7, .pop, by decide, rfl⟩
    · rw [State.reg_setReg_other _ _ h7] at hj
      exact .inl ⟨named hj, .pop, by decide, rfl⟩
  | _ => exact absurd rfl hj

/-- Whatever was emitted before, an instruction does the same and emits the same (R29). -/
theorem Completes.with_out {i : Instr} {s u : State} (h : Completes i s u) :
    ∃ emitted, u.out = s.out ++ emitted ∧
      ∀ o, Completes i { s with out := o } { u with out := o ++ emitted } := by
  have silent (hout : u.out = s.out) (hc : ∀ o, Completes i { s with out := o } { u with out := o }) :
      ∃ emitted, u.out = s.out ++ emitted ∧ ∀ o, Completes i { s with out := o } { u with out := o ++ emitted } :=
    ⟨[], by rw [hout, List.append_nil], fun o => by rw [List.append_nil]; exact hc o⟩
  cases h with
  | prn _ h => exact ⟨_, rfl, fun o => .prn { s with out := o } h⟩
  | hlt => exact silent rfl fun o => .hlt { s with out := o }
  | unknown op => exact silent rfl fun o => .unknown op { s with out := o }
  | ldi imm8 _ h => exact silent rfl fun o => .ldi imm8 { s with out := o } h
  | push _ h => exact silent rfl fun o => .push { s with out := o } h
  | pop _ h => exact silent rfl fun o => .pop { s with out := o } h
  | cmp _ ha hb => exact silent rfl fun o => .cmp { s with out := o } ha hb
  | jmp _ h => exact silent rfl fun o => .jmp { s with out := o } h
  | jeq _ h => exact silent rfl fun o => .jeq { s with out := o } h
  | jne _ h => exact silent rfl fun o => .jne { s with out := o } h
  | add _ ha hb => exact silent rfl fun o => .add { s with out := o } ha hb
  | sub _ ha hb => exact silent rfl fun o => .sub { s with out := o } ha hb
  | mul _ ha hb => exact silent rfl fun o => .mul { s with out := o } ha hb

end Sys2Proof.Machine
end

section
/-! SUPPORT. The invariant: every step keeps it, and every launch, the reset state included, begins with it
(spec/10_state.md R25, R26, R28, R30, R37); with what INSPECT then reads (R33). -/

namespace Sys2Proof.Machine

/-! ### Every step keeps the invariant -/

/-- A completed instruction keeps memory in its canonical form: PUSH's address is a byte. -/
theorem Completes.mem_wf {i : Instr} {s u : State} (h : Completes i s u) (hs : s.mem.wf = true) : u.mem.wf = true := by
  obtain hm | ⟨-, v, hm⟩ := h.mem
  · rwa [hm]
  · rw [hm]
    exact Memory.wf_write v (State.stackAddress_lt _) hs

/-- An instruction whose bytes lie in memory leaves pc at most 256 (R25). -/
theorem Completes.pc_le {t : OpcodeTable} {i : Instr} {s u : State} (h : Completes i s u)
    (hbytes : BytesAt s s.pc.toNat (encodeWith t i)) : u.pc.toNat ≤ 256 := by
  obtain hpc | ⟨v, hpc⟩ := h.pc t
  · have hend : s.pc.toNat + (encodeWith t i).length ≤ 256 := hbytes.add_length_le (encodeWith_ne_nil t i)
    rw [hpc, BitVec.toNat_add, BitVec.toNat_ofNat]
    omega
  · rw [hpc, toNat_zext9]
    exact v.isLt.le

/-- A step leaves FL as it was or one-hot (R26, R140). -/
theorem stepWith_fl {t : OpcodeTable} {s u : State} (h : stepWith t s = .next u) :
    u.fl = s.fl ∨ u.fl ∈ [flEqual, flGreater, flLess] := by
  obtain ⟨-, rfl⟩ | ⟨-, rfl⟩ | ⟨-, i, -, hc⟩ := stepWith_next_cases h
  · exact .inl rfl
  · exact .inl rfl
  · exact hc.fl.imp_right And.right

/-- Every step, under every table, keeps the invariant: a fault writes only `run` and `err`, and an instruction that
completes was fetched from memory. -/
theorem stepWith_keeps_inv {t : OpcodeTable} {s u : State} (hs : s.Inv) (h : stepWith t s = .next u) : u.Inv := by
  have hfl : u.fl ∈ [0b000#8, 0b001#8, 0b010#8, 0b100#8] := by
    obtain hfl | hfl := stepWith_fl h
    · rw [hfl]
      exact hs.flLegal
    · exact .tail _ hfl
  obtain ⟨-, rfl⟩ | ⟨-, rfl⟩ | ⟨hrun, i, hbytes, hc⟩ := stepWith_next_cases h
  · exact hs
  · exact ⟨hs.memWf, hs.pcBound, hfl, fun _ => rfl, .inr rfl⟩
  · have hclear : s.err = none := by
      by_contra herr
      exact absurd (hrun.symm.trans (hs.errHalted herr)) (by decide)
    have herr : u.err = none := hc.err.trans hclear
    exact ⟨hc.mem_wf hs.memWf, hc.pc_le hbytes, hfl, fun hne => absurd herr hne, .inl herr⟩

/-- Settles O24: `stepWith_keeps_inv` at every table, the default one included. -/
theorem stepKeepsInvariant : Obligations.StepKeepsInvariant :=
  ⟨fun _ _ _ => stepWith_keeps_inv, fun _ _ => stepWith_keeps_inv⟩

/-- Settles O27: CMP writes a one-hot value, and a step that changes FL makes it one-hot again. -/
theorem flOneHotAfterCompare : Obligations.FlOneHotAfterCompare := by
  constructor
  · intro rA rB s u ha hb h
    cases (exec_cmp s ha hb).symm.trans h
    exact compareFlags_mem _ _
  · intro t s u hs h
    obtain hfl | hfl := stepWith_fl h
    · rwa [hfl]
    · exact hfl

/-! ### Construction, load and inspection (R33, R200 to R202) -/

theorem State.load_eq_ok {s u : State} {image : List Byte} :
    s.load image = .ok u ↔ image.length ≤ Config.memSize ∧ s.setMem (s.mem.writeBytes Config.loadBase image) = u := by
  by_cases h : Config.memSize < image.length
  · simp [State.load, h]
  · simp [State.load, h, Nat.not_lt.mp h]

/-- Settles O26: the load writes at most 256 bytes from address 0, so memory stays canonical; construction gives the rest. -/
theorem launchMeetsInvariant : Obligations.LaunchMeetsInvariant := by
  intro initRegs initMem image u hmem h
  obtain ⟨hlen, rfl⟩ := State.load_eq_ok.mp h
  have hwf : (initMem.writeBytes Config.loadBase image).wf = true :=
    Memory.wf_writeBytes ((Nat.zero_add _).le.trans hlen) hmem
  exact ⟨hwf, Nat.zero_le _, .head _, fun hne => absurd rfl hne, .inl rfl⟩

/-- Settles O25: the reset state is a launch of the empty image. -/
theorem resetMeetsInvariant : Obligations.ResetMeetsInvariant :=
  launchMeetsInvariant _ [] [] _ Memory.wf_nil rfl

theorem State.reg_construct_castSucc (initRegs : Vector Byte 7) (initMem : Memory) (i : Fin 7) :
    (State.construct initRegs initMem).reg i.castSucc = initRegs[i] :=
  Vector.getElem_push_lt i.isLt

theorem State.reg_construct_spIndex (initRegs : Vector Byte 7) (initMem : Memory) :
    (State.construct initRegs initMem).reg Config.spIndex = spReset :=
  Vector.getElem_push_eq

/-- Settles O10: the image's bytes read as written, every other byte as in INIT_MEM, and the rest is construction's. -/
theorem launchGivesResetTable : Obligations.LaunchGivesResetTable := by
  intro initRegs initMem image hlen
  refine ⟨_, State.load_eq_ok.mpr ⟨hlen, rfl⟩, fun k hk => ?_, fun a hge hlt => ?_,
    State.reg_construct_castSucc initRegs initMem, State.reg_construct_spIndex initRegs initMem, rfl, rfl, rfl, rfl, rfl⟩
  · exact State.memRead_eq_ok.mpr ⟨(Nat.zero_add k).trans_lt (hk.trans_le hlen), Memory.read_writeBytes_at hk⟩
  · exact State.memRead_eq_ok.mpr ⟨hlt, Memory.read_writeBytes_other (.inr ((Nat.zero_add _).trans_le hge))⟩

/-- Settles O12: the registers are construction's over seven zeros, and an empty memory reads as the unlisted byte. -/
theorem resetStateValues : Obligations.ResetStateValues := by
  refine ⟨fun i => ?_, fun a ha => State.memRead_of_lt State.reset ha, rfl, rfl, rfl, rfl, rfl⟩
  revert i
  decide

/-- Settles O13: in range INSPECT is the field or the read itself, and out of range it is the bounds check's error. -/
theorem inspectReadsState : Obligations.InspectReadsState := by
  intro s
  refine ⟨fun i => dif_pos i.isLt, fun i hi => dif_neg (Nat.not_lt.mpr hi), fun a ha => s.memRead_of_lt ha,
    fun a ha => s.memRead_of_ge ha, rfl, rfl, rfl, ?_, ?_, ?_⟩
  all_goals
    intro herr
    rw [State.inspectErr, herr]
    rfl

end Sys2Proof.Machine
end

section
/-! SUPPORT. Rules over every step: who writes `out`, a register and the run state, and that no step reads `out`
(spec/10_state.md R20, R27, R29). -/

namespace Sys2Proof.Machine

/-- Settles O48: of the ways a step ends, only a completed PRN changes `out`. -/
theorem onlyPrnEmits : Obligations.OnlyPrnEmits := by
  refine ⟨fun _ _ => rfl, fun t s u h hne => ?_⟩
  obtain ⟨-, rfl⟩ | ⟨-, rfl⟩ | ⟨-, i, hbytes, hc⟩ := stepWith_next_cases h
  · exact absurd rfl hne
  · exact absurd rfl hne
  · obtain hout | ⟨rA, hr, rfl, hout⟩ := hc.out
    · exact absurd hout hne
    · obtain ⟨hop, hoperands⟩ := hbytes.opcode_operands rfl
      refine ⟨hop, ⟨rA.toNat, hr⟩, ?_, hout⟩
      rw [BitVec.ofNat_toNat, BitVec.setWidth_eq]
      exact (BytesAt.cons_iff.mp hoperands).1

/-- Settles O49: of the ways a step ends, only a completed instruction writes a register, and `Completes.reg` says which. -/
theorem registerWritesAreNamed : Obligations.RegisterWritesAreNamed := by
  intro t s u j h hne
  obtain ⟨-, rfl⟩ | ⟨-, rfl⟩ | ⟨-, i, hbytes, hc⟩ := stepWith_next_cases h
  · exact absurd rfl hne
  · exact absurd rfl hne
  · obtain ⟨hj, m, hm, hmnemonic⟩ | ⟨hj, m, hm, hmnemonic⟩ := hc.reg hne
    · obtain ⟨hop, hoperands⟩ := hbytes.opcode_operands hmnemonic
      exact .inl ⟨hoperands.head?_eq hj, m, hm, hop⟩
    · exact .inr ⟨hj, m, hm, (hbytes.opcode_operands hmnemonic).1⟩

theorem fetch_with_out (s : State) (o : List Byte) : fetch { s with out := o } = fetch s := by
  rw [fetch_eq, fetch_eq]

/-- An instruction does the same and emits the same, whatever was emitted before it. -/
theorem exec_with_out {i : Instr} {s u : State} (h : exec i s = .next u) :
    ∃ emitted, u.out = s.out ++ emitted ∧ ∀ o, exec i { s with out := o } = .next { u with out := o ++ emitted } := by
  obtain hc | ⟨⟨r, hr, hge⟩, rfl⟩ := exec_cases h
  · obtain ⟨emitted, hout, hsame⟩ := hc.with_out
    exact ⟨emitted, hout, fun o => (hsame o).exec_eq⟩
  · refine ⟨[], (List.append_nil _).symm, fun o => ?_⟩
    rw [List.append_nil]
    exact exec_of_invalid_register _ hr hge

/-- Settles O50: the fetch does not read `out`, so the step takes the same way with another stream. -/
theorem outputHistoryIsUnread : Obligations.OutputHistoryIsUnread := by
  intro t s u o h
  have hfetch := fetch_with_out s o
  obtain ⟨hrun, hs⟩ | ⟨hrun, hf, hs⟩ | ⟨-, _, _, -, -, hs⟩ | ⟨hrun, _, i, _, hf, hd, hs⟩ := stepWith_cases t s
  · cases hs.symm.trans h
    refine ⟨[], (List.append_nil _).symm, ?_⟩
    rw [List.append_nil]
    exact stepWith_of_halted t hrun
  · cases hs.symm.trans h
    refine ⟨[], (List.append_nil _).symm, ?_⟩
    rw [List.append_nil]
    exact stepWith_of_fetch_error t hrun (hfetch.trans hf)
  · cases hs.symm.trans h
  · obtain ⟨emitted, hout, hsame⟩ := exec_with_out (hs.symm.trans h)
    exact ⟨emitted, hout, (stepWith_of_decodeWith (s := { s with out := o }) hrun (hfetch.trans hf) hd).trans (hsame o)⟩

/-- Settles O51: a Running step faults or completes an instruction, and of these only HLT writes the run state. -/
theorem onlyHltOrFaultHalts : Obligations.OnlyHltOrFaultHalts := by
  intro t s u hrunning h hhalted
  obtain ⟨-, rfl⟩ | ⟨-, rfl⟩ | ⟨-, i, hbytes, hc⟩ := stepWith_next_cases h
  · exact absurd (hrunning.symm.trans hhalted) (by decide)
  · exact .inr rfl
  · obtain hrun | hhlt := hc.run
    · exact absurd (hrunning.symm.trans (hrun.symm.trans hhalted)) (by decide)
    · exact .inl ⟨(hbytes.opcode_operands hhlt).1, hc.err⟩

end Sys2Proof.Machine
end

section
/-! SUPPORT. The run loop: its end does not depend on the bound, and a run need not end (spec/10_state.md R36,
spec/40_sequencer.md R80, R93). -/

namespace Sys2Proof.Machine

theorem runLoop_of_halted (n : Nat) {s : State} (h : s.run = .halted) : runLoop n s = .next s := by
  cases n with
  | zero => rfl
  | succ n => rw [runLoop, h]

theorem runLoop_succ_of_running {n : Nat} {s v : State} (hrun : s.run = .running) (hv : step s = .next v) :
    runLoop (n + 1) s = runLoop n v := by
  simp only [runLoop, hrun, hv]

/-- A loop that answers a state from a Running one took a step first. -/
theorem exists_step_of_runLoop_succ {n : Nat} {s u : State} (hrun : s.run = .running)
    (h : runLoop (n + 1) s = .next u) : ∃ v, step s = .next v ∧ runLoop n v = .next u := by
  cases hv : step s with
  | next v => exact ⟨v, rfl, (runLoop_succ_of_running hrun hv).symm.trans h⟩
  | fault r => simp [runLoop, hrun, hv] at h
  | refused r => simp [runLoop, hrun, hv] at h

/-- Settles O52, by induction on the smaller bound: at 0 the state is already Halted and the loop leaves it so; otherwise
both loops take the same first step. -/
theorem runEndIsStable : Obligations.RunEndIsStable := by
  intro n m s u hle h hhalted
  induction n generalizing m s with
  | zero =>
    cases h
    exact runLoop_of_halted m hhalted
  | succ n ih =>
    obtain _ | m := m
    · exact absurd hle (Nat.not_succ_le_zero n)
    cases hrun : s.run with
    | halted =>
      rw [runLoop_of_halted _ hrun] at h ⊢
      exact h
    | running =>
      obtain ⟨v, hv, hloop⟩ := exists_step_of_runLoop_succ hrun h
      rw [runLoop_succ_of_running hrun hv]
      exact ih m v (Nat.le_of_succ_le_succ hle) hloop

/-- A state that steps to itself is where the run loop stays. -/
theorem runLoop_of_step_eq_self (n : Nat) {s : State} (hrun : s.run = .running) (h : step s = .next s) :
    runLoop n s = .next s := by
  induction n with
  | zero => rfl
  | succ n ih => rw [runLoop_succ_of_running hrun h, ih]

/-- Under the default table a JMP whose bytes stand at pc is what a Running step executes. -/
theorem step_of_jmp_at_pc {rA : Byte} {s : State} (hrun : s.run = .running)
    (hbytes : BytesAt s s.pc.toNat (encode (.jmp rA))) : step s = exec (.jmp rA) s :=
  stepWith_of_decodeWith (rest := []) hrun (fetch_eq_ok.mpr ⟨hbytes, _, _, rfl, rfl⟩) rfl

/-- Settles O55: the jump's target is the pc it started from, so the step answers the same state, which is still Running. -/
theorem jumpToItselfNeverReturns : Obligations.JumpToItselfNeverReturns := by
  intro rA s h hrun hbytes hself
  have htarget : zext9 (s.reg ⟨rA.toNat, h⟩) = s.pc := BitVec.eq_of_toNat_eq ((toNat_zext9 _).trans hself)
  have hstep : step s = .next s := by
    rw [step_of_jmp_at_pc hrun hbytes, exec_jmp s h, htarget]
    rfl
  refine ⟨hstep, fun n => ?_⟩
  rw [runReturn, runLoop_of_step_eq_self n hrun hstep]
  simp [hrun]

end Sys2Proof.Machine
end

section
/-! SUPPORT. Memory along a step: only PUSH writes it, one byte at the decremented SP, and the next fetch reads what was
written (spec/10_state.md R40, R52, R54; spec/42_stack.md R121). -/

namespace Sys2Proof.Machine

/-! ### The byte a write changes -/

theorem State.memRead_setMem_write_same (s : State) (m : Memory) {a : Nat} (v : Byte) (ha : a < Config.memSize) :
    (s.setMem (m.write a v)).memRead a = .ok v :=
  State.memRead_eq_ok.mpr ⟨ha, Memory.read_write_same m a v⟩

theorem State.memRead_of_mem_eq {s u : State} (h : u.mem = s.mem) (a : Nat) : u.memRead a = s.memRead a := by
  rw [State.memRead, State.memRead, h]

/-- A byte that reads differently after a write is the one written. -/
theorem State.eq_of_memRead_ne_of_write {s u : State} {a b : Nat} {v : Byte} (h : u.mem = s.mem.write b v)
    (hne : u.memRead a ≠ s.memRead a) : a = b := by
  by_contra hab
  refine hne ?_
  rw [State.memRead, State.memRead, h, Memory.read_write_other _ _ hab]

/-- The address PUSH stores to is SP - 1 modulo 256 (R121). -/
theorem State.stackAddress_decrementSp (s : State) : s.decrementSp.stackAddress = (s.reg 7 - 1).toNat := by
  rw [State.stackAddress, State.sp, State.decrementSp_eq, State.reg_setReg_same]
  rfl

/-- Settles O46: of the ways a step ends, only a completed PUSH writes memory, and what it writes is one byte. -/
theorem onlyPushWritesMemory : Obligations.OnlyPushWritesMemory := by
  intro t s u a h hne
  obtain ⟨-, rfl⟩ | ⟨-, rfl⟩ | ⟨-, i, hbytes, hc⟩ := stepWith_next_cases h
  · exact absurd rfl hne
  · exact absurd rfl hne
  · obtain hmem | ⟨hpush, v, hmem⟩ := hc.mem
    · exact absurd (State.memRead_of_mem_eq hmem a) hne
    · refine ⟨(hbytes.opcode_operands hpush).1, ?_⟩
      rw [State.eq_of_memRead_ne_of_write hmem hne, State.stackAddress_decrementSp]

/-! ### The byte the next fetch reads -/

/-- The first fetched byte is the one that stands at pc (R81). -/
theorem head?_of_fetch {s : State} {bytes : List Byte} {b : Byte} (h : fetch s = .ok bytes)
    (hb : s.memRead s.pc.toNat = .ok b) : bytes.head? = some b := by
  obtain ⟨hbytes, op, operands, rfl, -⟩ := fetch_eq_ok.mp h
  cases (BytesAt.cons_iff.mp hbytes).1.symm.trans hb
  rfl

/-- Settles O35: the pushed byte reads back at the address it was stored to, and that address is the new pc. -/
theorem nextFetchSeesPush : Obligations.NextFetchSeesPush := by
  intro rA s h
  refine ⟨_, exec_push s h, fun hpc bytes hfetch => head?_of_fetch hfetch ?_⟩
  rw [hpc, State.memRead_advance]
  exact State.memRead_setMem_write_same _ _ _ (State.stackAddress_lt _)

end Sys2Proof.Machine
end

section
/-! SUPPORT. Instructions by mnemonic, and the decoder under a table that meets R64 (spec/30_encoding.md R60 to R66, R84). -/

namespace Sys2Proof

/-- Every byte has at most three operand bytes (R60). -/
theorem opcodeOperands_lt (op : Byte) : opcodeOperands op < 4 := by
  rw [opcodeOperands, BitVec.toNat_and]
  exact Nat.and_lt_two_pow (n := 2) _ (by decide)

theorem Mnemonic.mem_all (m : Mnemonic) : m ∈ Mnemonic.all := by
  cases m <;> decide

theorem decodeOpcodeWith_eq_none {t : OpcodeTable} {op : Byte} :
    decodeOpcodeWith t op = none ↔ ∀ m, t m ≠ op := by
  simp [decodeOpcodeWith, Mnemonic.mem_all]

/-- With distinct opcode bytes, the byte of a mnemonic decodes to that mnemonic only. -/
theorem decodeOpcodeWith_eq_some {t : OpcodeTable} (ht : t.Ok) {op : Byte} {m : Mnemonic} :
    decodeOpcodeWith t op = some m ↔ t m = op := by
  have matched {m' : Mnemonic} (h : decodeOpcodeWith t op = some m') : t m' = op :=
    beq_iff_eq.mp (List.find?_some (p := fun m => t m == op) h)
  refine ⟨matched, fun hm => ?_⟩
  cases hd : decodeOpcodeWith t op with
  | none => exact absurd hm (decodeOpcodeWith_eq_none.mp hd m)
  | some m' => rw [ht.1 m' m ((matched hd).trans hm.symm)]

theorem decodeOperands_operands_append {i : Instr} {m : Mnemonic} (h : i.mnemonic = some m) (rest : List Byte) :
    decodeOperands (i.operands ++ rest) m = .ok (i, rest) := by
  cases i <;> cases h <;> rfl

theorem Instr.length_operands {i : Instr} {m : Mnemonic} (h : i.mnemonic = some m) :
    i.operands.length = m.operandCount := by
  cases i <;> cases h <;> rfl

/-- An instruction has a mnemonic or is an unknown opcode. -/
theorem Instr.exists_mnemonic_or_eq_unknown (i : Instr) : (∃ m, i.mnemonic = some m) ∨ ∃ op, i = .unknown op := by
  cases i with
  | unknown op => exact .inr ⟨op, rfl⟩
  | _ => exact .inl ⟨_, rfl⟩

theorem Instr.wfFor_unknown {t : OpcodeTable} {op : Byte} :
    (Instr.unknown op).wfFor t = true ↔ ∀ m, t m ≠ op := by
  simp [Instr.wfFor, Mnemonic.mem_all]

end Sys2Proof
end

section
/-! SUPPORT. From an instruction's bytes in memory to its execution: the fetch reads them, with an unknown opcode's
`op[7:6]` bytes after it, and the decoder answers the instruction (spec/30_encoding.md R64, R65, R71;
spec/40_sequencer.md R82, R84, R92). -/

namespace Sys2Proof.Machine

/-! ### The fetch of bytes that lie in memory (R82) -/

/-- Below 256 there are bytes to read. -/
theorem BytesAt.exists_of_add_le (s : State) {a n : Nat} (h : a + n ≤ Config.memSize) :
    ∃ bytes, bytes.length = n ∧ BytesAt s a bytes :=
  ⟨_, State.memReadMany_eq_ok.mp ((State.memReadMany_eq s a n).trans (if_pos (.inl h)))⟩

/-- Where the opcode byte at pc and its `op[7:6]` operand bytes lie below 256, the fetch answers them (R81, R82). -/
theorem exists_fetch_eq_ok {s : State} {op : Byte} (hop : s.memRead s.pc.toNat = .ok op)
    (hlt : s.pc.toNat + opcodeOperands op < 256) :
    ∃ operands, fetch s = .ok (op :: operands) ∧ operands.length = opcodeOperands op ∧
      BytesAt s (s.pc.toNat + 1) operands := by
  have hend : s.pc.toNat + 1 + opcodeOperands op ≤ Config.memSize := (Nat.succ_add _ _).trans_le hlt
  obtain ⟨operands, hlen, hoperands⟩ := BytesAt.exists_of_add_le s hend
  exact ⟨operands, fetch_eq_ok.mpr ⟨BytesAt.cons_iff.mpr ⟨hop, hoperands⟩, op, operands, rfl, hlen⟩, hlen, hoperands⟩

/-! ### Decoding what was encoded (R71) -/

/-- The bytes of a well-formed instruction decode to it and leave what follows them (R71). -/
theorem decodeWith_encodeWith_append {t : OpcodeTable} (ht : t.Ok) {i : Instr} (hwf : i.wfFor t = true)
    (rest : List Byte) : decodeWith t (encodeWith t i ++ rest) = .ok (i, rest) := by
  obtain ⟨m, hm⟩ | ⟨op, rfl⟩ := i.exists_mnemonic_or_eq_unknown
  · have hop : decodeOpcodeWith t (t m) = some m := (decodeOpcodeWith_eq_some ht).mpr rfl
    rw [encodeWith_of_mnemonic hm, List.cons_append, decodeWith, hop]
    exact decodeOperands_operands_append hm rest
  · have hop : decodeOpcodeWith t op = none := decodeOpcodeWith_eq_none.mpr (Instr.wfFor_unknown.mp hwf)
    rw [encodeWith, List.singleton_append, decodeWith, hop]

/-! ### The instruction at pc -/

/-- The fetch reads the bytes of the instruction at pc: exactly them for a defined instruction, whose operand count is its
opcode byte's (R84), and more after an unknown opcode's one byte (R66). -/
theorem exists_fetch_of_encodeWith {t : OpcodeTable} (ht : t.Ok) {i : Instr} {s : State}
    (hbytes : BytesAt s s.pc.toNat (encodeWith t i))
    (hunknown : ∀ op, i = .unknown op → s.pc.toNat + opcodeOperands op < 256) :
    ∃ rest, fetch s = .ok (encodeWith t i ++ rest) := by
  obtain ⟨m, hm⟩ | ⟨op, rfl⟩ := i.exists_mnemonic_or_eq_unknown
  · have hcount : i.operands.length = opcodeOperands (t m) := (Instr.length_operands hm).trans (ht.2 m).symm
    refine ⟨[], ?_⟩
    rw [List.append_nil]
    exact fetch_eq_ok.mpr ⟨hbytes, t m, i.operands, encodeWith_of_mnemonic hm, hcount⟩
  · obtain ⟨operands, hfetch, -⟩ := exists_fetch_eq_ok (BytesAt.cons_iff.mp hbytes).1 (hunknown op rfl)
    exact ⟨operands, hfetch⟩

/-- Settles O15: the fetch reads the instruction's bytes and the decoder gives the instruction back, before anything is
written. -/
theorem encodedInstructionRuns : Obligations.EncodedInstructionRuns := by
  intro t ht i s hwf hrun hbytes hunknown
  obtain ⟨rest, hfetch⟩ := exists_fetch_of_encodeWith ht hbytes hunknown
  exact stepWith_of_decodeWith hrun hfetch (decodeWith_encodeWith_append ht hwf rest)

/-- Settles O11: the launch leaves a Running machine with pc 0, where the image's bytes stand; from there the at most three
operand bytes of an unknown opcode lie in memory. -/
theorem launchRunsFirstInstruction : Obligations.LaunchRunsFirstInstruction := by
  intro t ht initRegs initMem i rest hwf hlen
  obtain ⟨u, hlaunch, himage, -, -, -, hpc, -, hrun, -, -⟩ := launchGivesResetTable initRegs initMem _ hlen
  have hpc0 : u.pc.toNat = 0 := congrArg BitVec.toNat hpc
  refine ⟨u, hlaunch, encodedInstructionRuns t ht i u hwf hrun ?_ fun op _ => ?_⟩
  · rw [hpc0]
    exact himage.of_append
  · have := opcodeOperands_lt op
    omega

end Sys2Proof.Machine
end

section
/-! SUPPORT. The decoder against the encoder, under every OPCODE table (spec/30_encoding.md R63 to R65, R71, R84). -/

namespace Sys2Proof

/-- Settles O6: an opcode byte matches its own table entry only, and the operand bytes that follow are taken by its format. -/
theorem decodeOfEncode : Obligations.DecodeOfEncode :=
  fun _ ht _ rest hwf => Machine.decodeWith_encodeWith_append ht hwf rest

/-- Settles O3: a table with distinct entries matches a byte with one mnemonic at most, and the search leaves none out. -/
theorem opcodeMatchIsExact : Obligations.OpcodeMatchIsExact :=
  fun _ ht _ => ⟨fun _ => decodeOpcodeWith_eq_some ht, decodeOpcodeWith_eq_none⟩

/-! ### What decodes is well-formed (R65, R66) -/

theorem Instr.wfFor_of_mnemonic {t : OpcodeTable} {i : Instr} {m : Mnemonic} (h : i.mnemonic = some m) :
    i.wfFor t = true := by
  cases i <;> cases h <;> rfl

theorem wfFor_of_decodeWith {t : OpcodeTable} {bytes rest : List Byte} {i : Instr}
    (h : decodeWith t bytes = .ok (i, rest)) : i.wfFor t = true := by
  cases bytes with
  | nil => cases h
  | cons op tail =>
    rw [decodeWith] at h
    split at h
    next => exact Instr.wfFor_of_mnemonic (Machine.decodeOperands_eq_ok h).1
    next hop =>
      cases h
      exact Instr.wfFor_unknown.mpr (decodeOpcodeWith_eq_none.mp hop)

/-- Settles O7: an unknown opcode is answered only where no entry matches, and the bytes taken are the encoding's. -/
theorem encodeOfDecode : Obligations.EncodeOfDecode :=
  fun _ _ _ _ h => ⟨wfFor_of_decodeWith h, Machine.encodeWith_of_decodeWith h⟩

/-! ### Operands by count (R63, R84) -/

/-- As many bytes as a mnemonic's format has are the operands of one of its instructions. -/
theorem Mnemonic.exists_instr (m : Mnemonic) {operands : List Byte} (h : operands.length = m.operandCount) :
    ∃ i : Instr, i.mnemonic = some m ∧ i.operands = operands := by
  match m, operands, h with
  | .hlt, [], _ => exact ⟨.hlt, rfl, rfl⟩
  | .prn, [a], _ => exact ⟨.prn a, rfl, rfl⟩
  | .push, [a], _ => exact ⟨.push a, rfl, rfl⟩
  | .pop, [a], _ => exact ⟨.pop a, rfl, rfl⟩
  | .jmp, [a], _ => exact ⟨.jmp a, rfl, rfl⟩
  | .jeq, [a], _ => exact ⟨.jeq a, rfl, rfl⟩
  | .jne, [a], _ => exact ⟨.jne a, rfl, rfl⟩
  | .ldi, [a, b], _ => exact ⟨.ldi a b, rfl, rfl⟩
  | .cmp, [a, b], _ => exact ⟨.cmp a b, rfl, rfl⟩
  | .add, [a, b], _ => exact ⟨.add a b, rfl, rfl⟩
  | .sub, [a, b], _ => exact ⟨.sub a b, rfl, rfl⟩
  | .mul, [a, b], _ => exact ⟨.mul a b, rfl, rfl⟩

/-- Settles O8: bits 7:6 of the opcode byte are the mnemonic's operand count, so these bytes are the operands of an
instruction, and decoding its encoding gives it back. -/
theorem fetchedBytesAreOperands : Obligations.FetchedBytesAreOperands := by
  intro t ht m operands hlen
  obtain ⟨i, hm, rfl⟩ := m.exists_instr (hlen.trans (ht.2 m))
  have hdecode := Machine.decodeWith_encodeWith_append ht (Instr.wfFor_of_mnemonic hm) []
  rw [List.append_nil, Machine.encodeWith_of_mnemonic hm] at hdecode
  exact ⟨i, hdecode, hm, rfl⟩

/-- Settles O5: R71's layout, one equation per instruction. -/
theorem encodingFunction : Obligations.EncodingFunction :=
  fun _ _ _ => ⟨rfl, rfl, rfl, rfl, rfl, rfl, rfl, rfl, rfl, rfl, rfl, rfl⟩

end Sys2Proof
end

section
/-! SUPPORT. The default OPCODE table (spec/30_encoding.md R64, log entry 1) and how many byte values a table leaves Unknown
(R66). -/

namespace Sys2Proof

/-! ### The default table (R64) -/

theorem opcode_ok : opcode.Ok := by
  have distinct : (Mnemonic.all.map opcode).Nodup := by decide
  refine ⟨fun m m' => List.inj_on_of_nodup_map distinct m.mem_all m'.mem_all, fun m => ?_⟩
  cases m <;> rfl

/-- Settles O1: the values are read off the table. -/
theorem defaultOpcodesMeetConstraints : Obligations.DefaultOpcodesMeetConstraints :=
  ⟨opcode_ok, rfl⟩

theorem decode_encode_append {i : Instr} (hwf : i.wf = true) (rest : List Byte) :
    decode (encode i ++ rest) = .ok (i, rest) :=
  Machine.decodeWith_encodeWith_append opcode_ok hwf rest

/-- Settles O2: each word is the encoding of its instruction, the last one with a byte after it. -/
theorem sampleWordsDecode : Obligations.SampleWordsDecode :=
  ⟨decode_encode_append (i := .hlt) rfl [], decode_encode_append (i := .ldi 0#8 8#8) rfl [],
    decode_encode_append (i := .prn 8#8) rfl [], decode_encode_append (i := .push 7#8) rfl [],
    decode_encode_append (i := .cmp 0#8 1#8) rfl [], decode_encode_append (i := .jeq 2#8) rfl [],
    decode_encode_append (i := .mul 1#8 0#8) rfl [],
    decode_encode_append (i := .unknown 0x50#8) (by decide) [0x01#8]⟩

/-! ### Counting the byte values (R60, R66) -/

/-- The byte values whose bits 7:6 are `n`. -/
def byteValuesWithOperands (n : Nat) : List Nat :=
  (List.range 256).filter fun b => opcodeOperands (BitVec.ofNat 8 b) == n

theorem nodup_byteValuesWithOperands (n : Nat) : (byteValuesWithOperands n).Nodup :=
  List.nodup_range.filter _

theorem length_byteValuesWithOperands (n : Fin 4) : (byteValuesWithOperands n).length = 64 := by
  decide +revert

/-- The byte values with `n` operands that decode to a mnemonic are the table's entries for the mnemonics with `n` operands:
bits 7:6 of an entry are its mnemonic's operand count. -/
theorem definedByteValues_perm_entries {t : OpcodeTable} (ht : t.Ok) (n : Nat) :
    ((byteValuesWithOperands n).filter fun b => (decodeOpcodeWith t (BitVec.ofNat 8 b)).isSome).Perm
      ((Mnemonic.all.filter fun m => m.operandCount == n).map fun m => (t m).toNat) := by
  have entry_inj : Function.Injective fun m => (t m).toNat := fun m m' h => ht.1 m m' (BitVec.eq_of_toNat_eq h)
  have nodup_all : Mnemonic.all.Nodup := by decide
  refine (List.perm_ext_iff_of_nodup ((nodup_byteValuesWithOperands n).filter _)
    ((nodup_all.filter _).map entry_inj)).mpr fun b => ?_
  simp only [byteValuesWithOperands, List.mem_filter, List.mem_range, List.mem_map, Option.isSome_iff_exists,
    decodeOpcodeWith_eq_some ht, beq_iff_eq, Mnemonic.mem_all, true_and]
  constructor
  · rintro ⟨⟨hb, hn⟩, m, hm⟩
    refine ⟨m, (ht.2 m).symm.trans (hm ▸ hn), ?_⟩
    rw [hm, BitVec.toNat_ofNat, Nat.mod_eq_of_lt hb]
  · rintro ⟨m, hn, rfl⟩
    have hop : BitVec.ofNat 8 (t m).toNat = t m := by rw [BitVec.ofNat_toNat, BitVec.setWidth_eq]
    exact ⟨⟨(t m).isLt, hop.symm ▸ (ht.2 m).trans hn⟩, m, hop.symm⟩

/-- Of the 64 byte values with `n` operands, those that no mnemonic with `n` operands takes are Unknown (R66). -/
theorem length_unknown_add_length_mnemonics {t : OpcodeTable} (ht : t.Ok) (n : Fin 4) :
    ((List.range 256).filter fun b =>
        (decodeOpcodeWith t (BitVec.ofNat 8 b)).isNone && opcodeOperands (BitVec.ofNat 8 b) == n.val).length +
      (Mnemonic.all.filter fun m => m.operandCount == n.val).length = 64 := by
  have hdefined := (definedByteValues_perm_entries ht n).length_eq
  rw [List.length_map] at hdefined
  rw [← List.filter_filter, ← hdefined, ← length_byteValuesWithOperands n,
    List.length_eq_length_filter_add (l := byteValuesWithOperands n)
      fun b => (decodeOpcodeWith t (BitVec.ofNat 8 b)).isNone]
  simp only [Option.not_isNone]
  rfl

/-- Settles O4: one mnemonic has no operand, six have one and five have two, of 64 byte values each. -/
theorem unknownOpcodeCounts : Obligations.UnknownOpcodeCounts := by
  intro n
  have hcount : [63, 58, 59, 64][n] + (Mnemonic.all.filter fun m => m.operandCount == n.val).length = 64 := by
    decide +revert
  exact Nat.add_right_cancel ((length_unknown_add_length_mnemonics opcode_ok n).trans hcount.symm)

end Sys2Proof
end

section
/-! SUPPORT. Every step answers a next state: what the fetch reads decodes, and every instruction completes or faults
(spec/30_encoding.md R67, R84; spec/40_sequencer.md R91, R92). -/

namespace Sys2Proof.Machine

theorem exists_exec_eq_next (i : Instr) (s : State) : ∃ u, exec i s = .next u := by
  by_cases hv : ∀ r ∈ i.registerOperands, r.toNat < Config.numRegs
  · exact (exists_completes s hv).imp fun _ => Completes.exec_eq
  · push Not at hv
    obtain ⟨r, hr, hge⟩ := hv
    exact ⟨_, exec_of_invalid_register s hr hge⟩

/-- The fetched bytes hold a whole instruction: a mnemonic's operands (R84), or an unknown opcode's one byte (R66). -/
theorem exists_decodeWith_of_fetch {t : OpcodeTable} (ht : t.Ok) {s : State} {bytes : List Byte}
    (h : fetch s = .ok bytes) : ∃ i rest, decodeWith t bytes = .ok (i, rest) := by
  obtain ⟨-, op, operands, rfl, hlen⟩ := fetch_eq_ok.mp h
  cases hop : decodeOpcodeWith t op with
  | some m =>
    obtain rfl := (decodeOpcodeWith_eq_some ht).mp hop
    obtain ⟨i, hdecode, -, -⟩ := fetchedBytesAreOperands t ht m operands hlen
    exact ⟨i, [], hdecode⟩
  | none => exact ⟨.unknown op, operands, by rw [decodeWith, hop]⟩

theorem exists_stepWith_eq_next {t : OpcodeTable} (ht : t.Ok) (s : State) : ∃ u, stepWith t s = .next u := by
  obtain ⟨-, hs⟩ | ⟨-, -, hs⟩ | ⟨-, bytes, e, hf, hd, -⟩ | ⟨-, _, i, _, -, -, hs⟩ := stepWith_cases t s
  · exact ⟨s, hs⟩
  · exact ⟨_, hs⟩
  · obtain ⟨i, rest, hi⟩ := exists_decodeWith_of_fetch ht hf
    cases hd.symm.trans hi
  · exact hs ▸ exists_exec_eq_next i s

/-- Settles O23: of the four ways a step ends, the refusal needs fetched bytes that do not decode, and there are none. -/
theorem stepAlwaysAnswersState : Obligations.StepAlwaysAnswersState :=
  ⟨fun _ => exists_stepWith_eq_next, exists_stepWith_eq_next opcode_ok⟩

end Sys2Proof.Machine
end

section
/-! SUPPORT. The sequencer's checks: where the fetch and the register operands raise OutOfBounds, and that a step that
raises writes nothing else (spec/40_sequencer.md R81, R82, R85, R89, R91, R92, R181). -/

namespace Sys2Proof.Machine

/-! ### The fetch's bounds checks (R81, R82) -/

/-- The fetch raises exactly where the opcode byte or the last of its `op[7:6]` operand bytes would lie at 256 or above. -/
theorem fetch_eq_error_iff {s : State} :
    fetch s = .error .outOfBounds ↔
      256 ≤ s.pc.toNat ∨ ∃ op, s.memRead s.pc.toNat = .ok op ∧ 256 ≤ s.pc.toNat + opcodeOperands op := by
  constructor
  · intro h
    by_contra hin
    push Not at hin
    obtain ⟨hpc, hoperands⟩ := hin
    have hop := s.memRead_of_lt hpc
    obtain ⟨_, hok, -⟩ := exists_fetch_eq_ok hop (hoperands _ hop)
    cases h.symm.trans hok
  · intro hsite
    rw [fetch_eq, if_neg]
    rintro ⟨hpc, hend⟩
    obtain hge | ⟨op, hop, hge⟩ := hsite
    · exact absurd hpc (Nat.not_lt.mpr hge)
    · obtain ⟨-, rfl⟩ := State.memRead_eq_ok.mp hop
      exact absurd hend (Nat.not_lt.mpr hge)

/-- Settles O16: the fetch's error, taken by the step, is the precise fault; in bounds the fetch answers the bytes. -/
theorem fetchIsBoundsChecked : Obligations.FetchIsBoundsChecked := by
  intro t s
  refine ⟨fun hpc hrun => ?_, fun op hop => ⟨fun hge hrun => ?_, exists_fetch_eq_ok hop⟩⟩
  · exact stepWith_of_fetch_error t hrun (fetch_eq_error_iff.mpr (.inl hpc))
  · exact stepWith_of_fetch_error t hrun (fetch_eq_error_iff.mpr (.inr ⟨op, hop, hge⟩))

/-! ### The register check and the fault (R85, R91) -/

/-- Settles O17: `exec_of_invalid_register` and `exec_of_valid_registers` are the two ways an instruction ends. -/
theorem registerOperandsAreChecked : Obligations.RegisterOperandsAreChecked :=
  fun _ s => ⟨fun _ hr hge => exec_of_invalid_register s hr hge, exec_of_valid_registers s⟩

/-- Settles O20: a step that changes `err` is the precise fault. -/
theorem faultIsPrecise : Obligations.FaultIsPrecise := by
  intro t s u _ hclear h hne
  obtain herr | rfl := stepWith_err h
  · exact absurd (herr.trans hclear) hne
  · exact ⟨rfl, rfl, rfl, rfl, rfl, rfl, rfl⟩

/-- The instruction the fetched bytes decode to stands at pc. -/
theorem bytesAt_encodeWith_of_fetch {t : OpcodeTable} {s : State} {bytes rest : List Byte} {i : Instr}
    (hf : fetch s = .ok bytes) (hd : decodeWith t bytes = .ok (i, rest)) :
    BytesAt s s.pc.toNat (encodeWith t i) := by
  have hbytes := (fetch_eq_ok.mp hf).1
  rw [← encodeWith_of_decodeWith hd] at hbytes
  exact hbytes.of_append

/-- A Running step of an instruction with an invalid register operand is the precise fault. An unknown opcode has no register
operand, so the fetch of these bytes is in bounds. -/
theorem stepWith_of_invalid_register {t : OpcodeTable} (ht : t.Ok) {i : Instr} {s : State} {r : Byte}
    (hwf : i.wfFor t = true) (hrun : s.run = .running) (hbytes : BytesAt s s.pc.toNat (encodeWith t i))
    (hr : r ∈ i.registerOperands) (hge : Config.numRegs ≤ r.toNat) : stepWith t s = .next s.afterOutOfBounds := by
  have hdefined (op : Byte) : i = .unknown op → s.pc.toNat + opcodeOperands op < 256 := by
    rintro rfl
    cases hr
  rw [encodedInstructionRuns t ht i s hwf hrun hbytes hdefined]
  exact exec_of_invalid_register s hr hge

/-- Settles O21: from `err` None, of the ways a step ends only the fetch's error and the register check's set `err`. -/
theorem outOfBoundsSites : Obligations.OutOfBoundsSites := by
  intro t ht s u hrun hclear h
  constructor
  · intro herr
    obtain ⟨hhalted, -⟩ | ⟨-, hf, -⟩ | ⟨-, _, _, -, -, hs⟩ | ⟨-, _, i, _, hf, hd, hs⟩ := stepWith_cases t s
    · cases hrun.symm.trans hhalted
    · exact (fetch_eq_error_iff.mp hf).imp_right .inl
    · cases hs.symm.trans h
    · obtain hc | ⟨hreg, -⟩ := exec_cases (hs.symm.trans h)
      · cases herr.symm.trans (hc.err.trans hclear)
      · exact .inr (.inr ⟨i, wfFor_of_decodeWith hd, bytesAt_encodeWith_of_fetch hf hd, hreg⟩)
  · intro hsite
    have hfault : stepWith t s = .next s.afterOutOfBounds := by
      obtain hpc | hop | ⟨i, hwf, hbytes, r, hr, hge⟩ := hsite
      · exact stepWith_of_fetch_error t hrun (fetch_eq_error_iff.mpr (.inl hpc))
      · exact stepWith_of_fetch_error t hrun (fetch_eq_error_iff.mpr (.inr hop))
      · exact stepWith_of_invalid_register ht hwf hrun hbytes hr hge
    cases hfault.symm.trans h
    rfl

/-! ### The step around an instruction (R86, R89, R92) -/

/-- Settles O14: the step's own equation at fetched bytes that decode. -/
theorem stepRunsDecodedInstruction : Obligations.StepRunsDecodedInstruction :=
  ⟨fun _ _ _ _ _ => stepWith_of_decodeWith, fun _ => rfl⟩

/-- Settles O19: a Halted machine's step answers the state it was asked in. -/
theorem haltedIsTerminal : Obligations.HaltedIsTerminal := by
  intro t s u hhalted h
  cases (stepWith_of_halted t hhalted).symm.trans h
  rfl

end Sys2Proof.Machine
end

section
/-! SUPPORT. The PC update as a number: a taken transfer's target, otherwise the instruction's length added without a wrap,
an unknown opcode's one byte included (spec/40_sequencer.md R87, R90). -/

namespace Sys2Proof

theorem Instr.eq_hlt_of_mnemonic {i : Instr} (h : i.mnemonic = some .hlt) : i = .hlt := by
  cases i <;> cases h
  rfl

end Sys2Proof

namespace Sys2Proof.Machine

/-! ### pc after a completed instruction -/

theorem length_encodeWith {t : OpcodeTable} {i : Instr} {m : Mnemonic} (h : i.mnemonic = some m) :
    (encodeWith t i).length = m.operandCount + 1 := by
  rw [encodeWith_of_mnemonic h, List.length_cons, Instr.length_operands h]

/-- Only the three transfers are ever taken, and a taken one leaves its operand register's byte in pc (R87, R141). -/
theorem Completes.pc_of_taken {i : Instr} {s u : State} {m : Mnemonic} (h : Completes i s u)
    (hm : i.mnemonic = some m) (htaken : s.taken m = true) :
    ∃ j : Fin Config.numRegs, i.operands = [BitVec.ofNat 8 j] ∧ u.pc = zext9 (s.reg j) := by
  have named {rA : Byte} (h : rA.toNat < Config.numRegs) {p : PcWord} (hp : p = zext9 (s.reg ⟨rA.toNat, h⟩)) :
      ∃ j : Fin Config.numRegs, [rA] = [BitVec.ofNat 8 j] ∧ p = zext9 (s.reg j) :=
    ⟨⟨rA.toNat, h⟩, by rw [BitVec.ofNat_toNat, BitVec.setWidth_eq], hp⟩
  cases h with
  | jmp _ h => exact named h rfl
  | jeq _ h =>
    cases hm
    exact named h (if_pos htaken)
  | jne _ h =>
    cases hm
    exact named h (if_neg (by simpa [State.taken] using htaken))
  | _ => cases hm <;> cases htaken

/-- Without a taken transfer pc advances by the instruction's length. -/
theorem Completes.pc_of_not_taken {i : Instr} {s u : State} (t : OpcodeTable) (h : Completes i s u)
    (hnot : ∀ m, i.mnemonic = some m → s.taken m = false) :
    u.pc = s.pc + BitVec.ofNat 9 (encodeWith t i).length := by
  cases h with
  | jmp => cases hnot .jmp rfl
  | jeq => exact if_neg (Bool.eq_false_iff.mp (hnot .jeq rfl))
  | jne => exact if_pos (by simpa [State.taken] using hnot .jne rfl)
  | _ => rfl

/-- Advancing past bytes that lie in memory does not wrap: pc is at most 256 after it. -/
theorem BytesAt.toNat_pc_add_length {s : State} {bytes : List Byte} (h : BytesAt s s.pc.toNat bytes)
    (hne : bytes ≠ []) : (s.pc + BitVec.ofNat 9 bytes.length).toNat = s.pc.toNat + bytes.length := by
  have hend : s.pc.toNat + bytes.length ≤ 256 := h.add_length_le hne
  rw [BitVec.toNat_add, BitVec.toNat_ofNat]
  omega

/-- `Completes.pc_of_not_taken` as a number. -/
theorem Completes.toNat_pc_of_not_taken {t : OpcodeTable} {i : Instr} {s u : State} (h : Completes i s u)
    (hbytes : BytesAt s s.pc.toNat (encodeWith t i)) (hnot : ∀ m, i.mnemonic = some m → s.taken m = false) :
    u.pc.toNat = s.pc.toNat + (encodeWith t i).length := by
  rw [h.pc_of_not_taken t hnot, hbytes.toNat_pc_add_length (encodeWith_ne_nil t i)]

/-! ### The step -/

/-- Settles O18: the step executes the instruction at pc, which completes; its pc is a taken transfer's target or lies past
its bytes. -/
theorem pcAdvance : Obligations.PcAdvance := by
  intro t ht i s hwf hrun hbytes hunknown hregs
  obtain ⟨u, hc⟩ := exists_completes s hregs
  have hstep := (encodedInstructionRuns t ht i s hwf hrun hbytes hunknown).trans hc.exec_eq
  refine ⟨u, hstep, hc.pc_le hbytes, fun hne => ?_, ?_⟩
  · obtain hsame | hhlt := hc.run
    · exact hsame.trans hrun
    · exact absurd (Instr.eq_hlt_of_mnemonic hhlt) hne
  · obtain ⟨m, hm⟩ | ⟨op, rfl⟩ := i.exists_mnemonic_or_eq_unknown
    · rw [hm]
      dsimp only
      split
      next htaken =>
        obtain ⟨j, hj, hpc⟩ := hc.pc_of_taken hm htaken
        exact ⟨j, hj, by rw [hpc, toNat_zext9]⟩
      next hnot =>
        have hnot' (m' : Mnemonic) (hm' : i.mnemonic = some m') : s.taken m' = false := by
          cases hm.symm.trans hm'
          exact Bool.eq_false_iff.mpr hnot
        rw [hc.toNat_pc_of_not_taken hbytes hnot', length_encodeWith hm]
        omega
    · exact hc.toNat_pc_of_not_taken hbytes fun _ hm => by cases hm

/-- Settles O45: an unknown opcode's execution is the advance by 1, and its step is this execution where the fetch of its
`op[7:6]` bytes is in bounds. -/
theorem unknownSkipsOneByte : Obligations.UnknownSkipsOneByte := by
  intro t ht op hnone s
  refine ⟨⟨_, exec_unknown op s, rfl, fun _ _ => rfl, rfl, fun _ _ => rfl, rfl, rfl, rfl⟩, fun hrun hop => ?_⟩
  have hbytes : BytesAt s s.pc.toNat (encodeWith t (.unknown op)) := BytesAt.cons_iff.mpr ⟨hop, BytesAt.nil s _⟩
  split
  next hlt =>
    have hstep : stepWith t s = exec (.unknown op) s :=
      encodedInstructionRuns t ht _ s (Instr.wfFor_unknown.mpr hnone) hrun hbytes fun _ h => by cases h; exact hlt
    exact ⟨_, hstep.trans (exec_unknown op s), hbytes.toNat_pc_add_length (List.cons_ne_nil _ _), rfl, hrun⟩
  next hge =>
    exact stepWith_of_fetch_error t hrun (fetch_eq_error_iff.mpr (.inr ⟨op, hop, Nat.not_lt.mp hge⟩))

end Sys2Proof.Machine
end

section
/-! SUPPORT. The run loop against the host's repetition of the step (spec/40_sequencer.md R80, R89, log entry 4). -/

namespace Sys2Proof.Machine

theorem coreRun_succ_of_next {M : Host.Core} {n : Nat} {s v : M.State} (hv : M.step s = .next v) :
    M.run (n + 1) s = M.run n v := by
  rw [Host.Core.run, hv]

/-- Settles O54, by induction on the number of steps: every step answers a state, and where the loop stops because the
machine is Halted, that state is the one it stopped in. -/
theorem runLoopIsRepeatedStep : Obligations.RunLoopIsRepeatedStep := by
  intro n
  induction n with
  | zero => exact fun _ => rfl
  | succ n ih =>
    intro s
    cases hrun : s.run with
    | halted =>
      have hself : step s = .next s := stepWith_of_halted opcode hrun
      have hloop : runLoop n s = runLoop (n + 1) s := by rw [runLoop_of_halted n hrun, runLoop_of_halted _ hrun]
      exact (coreRun_succ_of_next hself).trans ((ih s).trans hloop)
    | running =>
      obtain ⟨v, hv⟩ := exists_stepWith_eq_next opcode_ok s
      exact (coreRun_succ_of_next hv).trans ((ih v).trans (runLoop_succ_of_running hrun hv).symm)

end Sys2Proof.Machine
end

section
/-! SUPPORT. HLT, LDI and PRN: the fetch's fault by mnemonic, the register check, and each completed state with its frame
(spec/41_halt_load_print.md R100 to R102). -/

namespace Sys2Proof.Machine

/-- Under a table that meets R64 the bytes fetched for a mnemonic are its operands, so the fetch's bounds check is on them
(R82, R84). -/
theorem fetchFaults_of_ok {t : OpcodeTable} (ht : t.Ok) (m : Mnemonic) : FetchFaults t m := by
  intro s hrun hop hge
  rw [← ht.2 m] at hge
  exact ((fetchIsBoundsChecked t s).2 (t m) hop).1 hge hrun

theorem regsSameBut_setReg (s : State) (i : Fin Config.numRegs) (v : Byte) : RegsSameBut [i] s (s.setReg i v) :=
  fun _ hj => State.reg_setReg_other s v (List.ne_of_not_mem_cons hj)

/-- Settles O28: the fetch raises with pc at 256 or above; HLT has no register to check, and the state it leaves is
Halted, so terminal. -/
theorem hltHalts : Obligations.HltHalts := by
  intro t _ s
  have hfetch (hrun : s.run = .running) (hpc : 256 ≤ s.pc.toNat) : stepWith t s = .next s.afterOutOfBounds :=
    (fetchIsBoundsChecked t s).1 hpc hrun
  have hterminal (v : State) (hv : stepWith t (s.halt.advance 1) = .next v) : v = s.halt.advance 1 :=
    haltedIsTerminal t _ v rfl hv
  exact ⟨rfl, hfetch, _, exec_hlt s, rfl, rfl, rfl, rfl, rfl, fun _ _ => rfl, fun _ _ => rfl, hterminal⟩

/-- Settles O29: past the fetch and the check of rA, the one register write and the advance by 3. -/
theorem ldiLoadsImmediate : Obligations.LdiLoadsImmediate := by
  intro t ht rA imm8 s
  refine ⟨rfl, fetchFaults_of_ok ht .ldi, exec_of_invalid_register s (.head _), fun h => ?_⟩
  exact ⟨_, exec_ldi imm8 s h, State.reg_setReg_same s _ imm8, regsSameBut_setReg s _ imm8, rfl, rfl, fun _ _ => rfl,
    rfl, rfl, rfl⟩

/-- Settles O30: past the fetch and the check of rA, the one byte emitted and the advance by 2. -/
theorem prnEmitsRegister : Obligations.PrnEmitsRegister := by
  intro t ht rA s
  refine ⟨rfl, fetchFaults_of_ok ht .prn, exec_of_invalid_register s (.head _), fun h => ?_⟩
  exact ⟨_, exec_prn s h, rfl, fun _ _ => rfl, rfl, rfl, fun _ _ => rfl, rfl, rfl⟩

end Sys2Proof.Machine
end

section
/-! SUPPORT. PUSH and POP: each completed state with its frame, the round trip, and nested pairs (spec/42_stack.md R120 to
R123). -/

namespace Sys2Proof.Machine

/-! ### Frames one after the other -/

/-- A state that keeps every register of another adds nothing to what has been written. -/
theorem RegsSameBut.trans {written : List (Fin Config.numRegs)} {s t u : State} (hst : RegsSameBut written s t)
    (htu : RegsSameBut [] t u) : RegsSameBut written s u :=
  fun j hj => (htu j List.not_mem_nil).trans (hst j hj)

/-- A state that keeps every byte of another adds nothing to what has been stored. -/
theorem MemSameBut.trans {stored : List Nat} {s t u : State} (hst : MemSameBut stored s t) (htu : MemSameBut [] t u) :
    MemSameBut stored s u :=
  fun a ha => (htu a List.not_mem_nil).trans (hst a ha)

theorem StatusSame.trans {s t u : State} (hst : StatusSame s t) (htu : StatusSame t u) : StatusSame s u :=
  ⟨htu.1.trans hst.1, htu.2.1.trans hst.2.1, htu.2.2.trans hst.2.2⟩

/-! ### The stack pointer's register -/

/-- The register operand byte that names SP (R23). -/
theorem spIndex_eq_iff {rA : Byte} (h : rA.toNat < Config.numRegs) : Config.spIndex = ⟨rA.toNat, h⟩ ↔ rA = 7 := by
  rw [Fin.ext_iff, eq_comm, ← BitVec.toNat_inj]
  rfl

theorem State.reg_decrementSp_spIndex (s : State) : s.decrementSp.reg 7 = s.reg 7 - 1 := by
  rw [State.decrementSp_eq, State.reg_setReg_same, State.sp]

theorem State.reg_incrementSp_spIndex (s : State) : s.incrementSp.reg 7 = s.reg 7 + 1 := by
  rw [State.incrementSp_eq, State.reg_setReg_same, State.sp]

theorem regsSameBut_decrementSp (s : State) : RegsSameBut [7] s s.decrementSp :=
  State.decrementSp_eq s ▸ regsSameBut_setReg s 7 _

theorem regsSameBut_incrementSp (s : State) : RegsSameBut [7] s s.incrementSp :=
  State.incrementSp_eq s ▸ regsSameBut_setReg s 7 _

/-- What PUSH stores: for R7 the decremented SP, for any other register its byte (R121). -/
theorem State.reg_decrementSp_operand (s : State) {rA : Byte} (h : rA.toNat < Config.numRegs) :
    s.decrementSp.reg ⟨rA.toNat, h⟩ = if rA = 7 then s.reg 7 - 1 else s.reg ⟨rA.toNat, h⟩ := by
  rw [State.decrementSp_eq, State.reg_setReg, State.sp]
  simp only [spIndex_eq_iff h]

/-- Writing to a register the byte it holds changes no register. -/
theorem regsSameBut_setReg_reg (s : State) (i : Fin Config.numRegs) : RegsSameBut [] s (s.setReg i (s.reg i)) := by
  intro j _
  rw [State.reg_setReg]
  split
  · next hij => rw [hij]
  · rfl

/-- From registers that differ from `s` by one decrement of SP, one increment gives those of `s` again (R120). -/
theorem regsSameBut_incrementSp_of_decrementSp {s t : State} (h : RegsSameBut [] s.decrementSp t) :
    RegsSameBut [] s t.incrementSp := by
  intro j _
  by_cases hj : j = 7
  · rw [hj, State.reg_incrementSp_spIndex, h 7 List.not_mem_nil, State.reg_decrementSp_spIndex, sub_add_cancel]
  · have hj : j ∉ [7] := mt List.mem_singleton.mp hj
    rw [regsSameBut_incrementSp t j hj, h j List.not_mem_nil, regsSameBut_decrementSp s j hj]

/-! ### PUSH -/

/-- A completed PUSH: the registers are those after the decrement of SP, and the one byte written is the register's as read
after it (R121). -/
theorem exists_exec_push (s : State) {rA : Byte} (h : rA.toNat < Config.numRegs) :
    ∃ u, exec (.push rA) s = .next u ∧ RegsSameBut [] s.decrementSp u ∧
      u.memRead (s.reg 7 - 1).toNat = .ok (s.decrementSp.reg ⟨rA.toNat, h⟩) ∧
      MemSameBut [(s.reg 7 - 1).toNat] s u ∧ u.pc = s.pc + 2 ∧ u.fl = s.fl ∧ StatusSame s u := by
  refine ⟨_, exec_push s h, fun _ _ => rfl, ?_, fun a ha => ?_, rfl, rfl, rfl, rfl, rfl⟩
  · rw [State.memRead_advance, State.stackAddress_decrementSp]
    exact State.memRead_setMem_write_same _ _ _ (byte_lt_memSize _)
  · by_contra hne
    rw [← State.stackAddress_decrementSp] at ha
    exact ha (List.mem_singleton.mpr (State.eq_of_memRead_ne_of_write rfl hne))

/-- Settles O31: past the fetch and the check of rA, the decrement of SP and the one byte written. -/
theorem pushStoresRegister : Obligations.PushStoresRegister := by
  intro t ht rA s
  refine ⟨rfl, fetchFaults_of_ok ht .push, exec_of_invalid_register s (.head _), State.stackAddress_decrementSp s,
    fun h => ?_⟩
  rw [State.stackAddress_decrementSp, ← State.reg_decrementSp_operand s h]
  obtain ⟨u, hx, hregs, hstored, hframe⟩ := exists_exec_push s h
  have hsp : u.reg 7 = s.reg 7 - 1 := (hregs 7 List.not_mem_nil).trans (State.reg_decrementSp_spIndex s)
  exact ⟨u, hx, hsp, (regsSameBut_decrementSp s).trans hregs, hstored, hframe⟩

/-! ### POP -/

/-- A completed POP: the byte at SP is written to the register, then SP is incremented; nothing else changes (R122). -/
theorem exists_exec_pop {s : State} {rA v : Byte} (h : rA.toNat < Config.numRegs)
    (hv : s.memRead (s.reg 7).toNat = .ok v) :
    ∃ u, exec (.pop rA) s = .next u ∧ RegsSameBut [] (s.setReg ⟨rA.toNat, h⟩ v).incrementSp u ∧ MemSameBut [] s u ∧
      u.pc = s.pc + 2 ∧ u.fl = s.fl ∧ StatusSame s u := by
  obtain ⟨-, rfl⟩ := State.memRead_eq_ok.mp hv
  exact ⟨_, exec_pop s h, fun _ _ => rfl, fun _ _ => rfl, rfl, rfl, rfl, rfl, rfl⟩

/-- Settles O32: past the fetch and the check of rA, the two register writes in their order, of which the second reads the
first where rA is 7. -/
theorem popLoadsRegister : Obligations.PopLoadsRegister := by
  intro t ht rA s
  refine ⟨rfl, fetchFaults_of_ok ht .pop, exec_of_invalid_register s (.head _), fun h => ?_⟩
  have hv := State.memRead_of_lt s (byte_lt_memSize (s.reg 7))
  obtain ⟨u, hx, hregs, hframe⟩ := exists_exec_pop h hv
  refine ⟨_, u, hv, hx, ?_, fun j hj => ?_, hframe⟩
  · rw [hregs _ List.not_mem_nil, hregs _ List.not_mem_nil, State.reg_incrementSp_spIndex]
    split
    · next h7 =>
      rw [← (spIndex_eq_iff h).mpr h7, State.reg_setReg_same]
    · next h7 =>
      have hne : Config.spIndex ≠ ⟨rA.toNat, h⟩ := mt (spIndex_eq_iff h).mp h7
      rw [State.reg_setReg_other _ _ hne, regsSameBut_incrementSp _ _ (mt List.mem_singleton.mp hne.symm),
        State.reg_setReg_same]
      exact ⟨rfl, rfl⟩
  · obtain ⟨hrA, hsp⟩ := List.ne_and_not_mem_of_not_mem_cons hj
    rw [hregs j List.not_mem_nil, regsSameBut_incrementSp _ j hsp, State.reg_setReg_other _ _ hrA]

/-! ### The round trip (R123) -/

/-- From any state with the registers that PUSH left and the pushed byte still in place, POP of the same register gives back
every register: the byte it loads is the one the register holds already, so only the increment of SP is left. -/
theorem exec_pop_of_pushed {s t : State} {rA : Byte} (h : rA.toNat < Config.numRegs)
    (hregs : RegsSameBut [] s.decrementSp t)
    (hstored : t.memRead (s.reg 7 - 1).toNat = .ok (s.decrementSp.reg ⟨rA.toNat, h⟩)) :
    ∃ u, exec (.pop rA) t = .next u ∧ RegsSameBut [] s u ∧ MemSameBut [] t u ∧ u.fl = t.fl ∧ StatusSame t u := by
  have hv : t.memRead (t.reg 7).toNat = .ok (t.reg ⟨rA.toNat, h⟩) := by
    rw [hregs 7 List.not_mem_nil, State.reg_decrementSp_spIndex, hregs _ List.not_mem_nil, hstored]
  obtain ⟨u, hx, hu, hmem, -, hfl, hstatus⟩ := exists_exec_pop h hv
  have hback : RegsSameBut [] s.decrementSp (t.setReg ⟨rA.toNat, h⟩ (t.reg ⟨rA.toNat, h⟩)) :=
    hregs.trans (regsSameBut_setReg_reg t _)
  exact ⟨u, hx, (regsSameBut_incrementSp_of_decrementSp hback).trans hu, hmem, hfl, hstatus⟩

/-- Settles O33: POP finds the registers and the byte as PUSH left them. -/
theorem pushThenPopRestores : Obligations.PushThenPopRestores := by
  intro rA s h
  obtain ⟨u, hpush, hregs, hstored, hmem, -, hfl, hstatus⟩ := exists_exec_push s h
  obtain ⟨v, hpop, hback, hmem', hfl', hstatus'⟩ := exec_pop_of_pushed h hregs hstored
  refine ⟨u, v, hpush, hpop, hback, ?_, hmem.trans hmem', hfl'.trans hfl, hstatus.trans hstatus'⟩
  rw [hmem' _ List.not_mem_nil, hstored, State.reg_decrementSp_operand]

/-! ### Nested pairs (R123) -/

theorem execAll_cons_of_next {i : Instr} {rest : List Instr} {s t : State} (h : exec i s = .next t) :
    execAll (i :: rest) s = execAll rest t := by
  rw [execAll, h]

theorem execAll_append_of_next {front back : List Instr} {s t : State} (h : execAll front s = .next t) :
    execAll (front ++ back) s = execAll back t := by
  induction front generalizing s with
  | nil =>
    cases h
    rfl
  | cons i rest ih =>
    rw [execAll] at h
    cases hi : exec i s with
    | next v =>
      rw [hi] at h
      rw [List.cons_append, execAll_cons_of_next hi, ih h]
    | fault r =>
      rw [hi] at h
      cases h
    | refused r =>
      rw [hi] at h
      cases h

/-- The outermost pair of a nesting runs first and last. -/
theorem execAll_nested_cons {r : Byte} {rs : List Byte} {s t u v : State} (hpush : exec (.push r) s = .next t)
    (hinner : execAll (rs.map Instr.push ++ rs.reverse.map Instr.pop) t = .next u) (hpop : exec (.pop r) u = .next v) :
    execAll ((r :: rs).map Instr.push ++ (r :: rs).reverse.map Instr.pop) s = .next v := by
  rw [List.map_cons, List.cons_append, execAll_cons_of_next hpush, List.reverse_cons, List.map_append,
    ← List.append_assoc, execAll_append_of_next hinner]
  exact execAll_cons_of_next hpop

/-- The addresses that `n` pushes in a row store to, from the stack pointer `sp`: `sp - 1` to `sp - n`, modulo 256. -/
def pushAddresses (sp : Byte) (n : Nat) : List Nat :=
  (List.range n).map fun k => (sp - BitVec.ofNat 8 (k + 1)).toNat

theorem pushAddresses_succ (sp : Byte) (n : Nat) :
    pushAddresses sp (n + 1) = (sp - 1).toNat :: pushAddresses (sp - 1) n := by
  have hnext (k : Nat) : sp - BitVec.ofNat 8 (k + 1 + 1) = sp - 1 - BitVec.ofNat 8 (k + 1) := by
    rw [Nat.add_comm (k + 1) 1, BitVec.ofNat_add, sub_add_eq_sub_sub]
    rfl
  simp only [pushAddresses, List.range_succ_eq_map, List.map_cons, List.map_map, Function.comp_def, Nat.succ_eq_add_one,
    hnext]
  rfl

/-- Fewer than 256 pushes do not come round to the byte at SP. -/
theorem toNat_not_mem_pushAddresses (sp : Byte) {n : Nat} (hn : n < 256) : sp.toNat ∉ pushAddresses sp n := by
  intro hmem
  obtain ⟨k, hk, heq⟩ := List.mem_map.mp hmem
  have hk := List.mem_range.mp hk
  have hsp := sp.isLt
  rw [BitVec.toNat_sub, BitVec.toNat_ofNat] at heq
  omega

/-- Settles O34, by induction on the registers: the pairs inside the outermost one give back the registers that its PUSH
left and, being fewer than 256, never reach its byte, so its POP gives back the rest. -/
theorem nestedPushPopRestores : Obligations.NestedPushPopRestores := by
  intro rs
  induction rs with
  | nil => exact fun s _ _ => ⟨s, rfl, fun _ _ => rfl, fun _ _ => rfl, rfl, rfl, rfl, rfl⟩
  | cons r rs ih =>
    intro s hvalid hlen
    rw [List.length_cons] at hlen
    have hr : r.toNat < Config.numRegs := hvalid r List.mem_cons_self
    obtain ⟨t, hpush, hregs, hstored, hmem, -, hfl, hstatus⟩ := exists_exec_push s hr
    obtain ⟨u, hinner, hregs', hmem', hfl', hstatus'⟩ :=
      ih t (fun r hr => hvalid r (List.mem_cons_of_mem _ hr)) (by omega)
    have hsp : t.reg 7 = s.reg 7 - 1 := (hregs 7 List.not_mem_nil).trans (State.reg_decrementSp_spIndex s)
    have hmem' : MemSameBut (pushAddresses (s.reg 7 - 1) rs.length) t u := hsp ▸ hmem'
    have hkept : u.memRead (s.reg 7 - 1).toNat = t.memRead (s.reg 7 - 1).toNat :=
      hmem' _ (toNat_not_mem_pushAddresses _ (by omega))
    obtain ⟨v, hpop, hback, hmem'', hfl'', hstatus''⟩ :=
      exec_pop_of_pushed hr (hregs.trans hregs') (hkept.trans hstored)
    have hframe : MemSameBut (pushAddresses (s.reg 7) (rs.length + 1)) s v := by
      intro a ha
      rw [pushAddresses_succ] at ha
      obtain ⟨houter, hin⟩ := List.ne_and_not_mem_of_not_mem_cons ha
      rw [hmem'' a List.not_mem_nil, hmem' a hin, hmem a (mt List.mem_singleton.mp houter)]
    exact ⟨v, execAll_nested_cons hpush hinner hpop, hback, hframe, hfl''.trans (hfl'.trans hfl),
      hstatus.trans (hstatus'.trans hstatus'')⟩

end Sys2Proof.Machine
end

section
/-! SUPPORT. CMP and the three control transfers: the compare's flags by the order of the operands, each completed state with
its frame, and that no instruction reads more of FL than E (spec/43_compare_branch.md R140 to R144). -/

namespace Sys2Proof.Machine

/-! ### CMP -/

theorem compareFlags_of_eq {a b : Byte} (h : a.toNat = b.toNat) : compareFlags a b = flEqual :=
  if_pos (BitVec.eq_of_toNat_eq h)

theorem compareFlags_of_gt {a b : Byte} (h : a.toNat > b.toNat) : compareFlags a b = flGreater := by
  have hne : a ≠ b := ne_of_apply_ne BitVec.toNat h.ne'
  rw [compareFlags, if_neg hne, if_pos h]

theorem compareFlags_of_lt {a b : Byte} (h : a.toNat < b.toNat) : compareFlags a b = flLess := by
  have hne : a ≠ b := ne_of_apply_ne BitVec.toNat h.ne
  rw [compareFlags, if_neg hne, if_neg (Nat.lt_asymm h)]

/-- Settles O36: past the fetch and the check of both registers, the compare's flags and the advance by 3. -/
theorem cmpSetsOneFlag : Obligations.CmpSetsOneFlag := by
  intro t ht rA rB s
  have hcheck (h : 8 ≤ rA.toNat ∨ 8 ≤ rB.toNat) : exec (.cmp rA rB) s = .next s.afterOutOfBounds := by
    obtain ha | hb := h
    · exact exec_of_invalid_register s (.head _) ha
    · exact exec_of_invalid_register s (.tail _ (.head _)) hb
  refine ⟨rfl, fetchFaults_of_ok ht .cmp, hcheck, fun ha hb => ?_⟩
  exact ⟨_, exec_cmp s ha hb, compareFlags_of_eq, compareFlags_of_gt, compareFlags_of_lt, fun _ _ => rfl, rfl,
    fun _ _ => rfl, rfl, rfl, rfl⟩

/-! ### JMP, JEQ and JNE -/

/-- A control transfer, taken or not, writes pc and nothing else. -/
theorem State.setPc_frame (s : State) (target : PcWord) :
    RegsSameBut [] s (s.setPc target) ∧ (s.setPc target).fl = s.fl ∧ MemSameBut [] s (s.setPc target) ∧
      StatusSame s (s.setPc target) :=
  ⟨fun _ _ => rfl, rfl, fun _ _ => rfl, rfl, rfl, rfl⟩

/-- Settles O37: past the fetch and the check of rA, pc is the register's byte. -/
theorem jmpTransfers : Obligations.JmpTransfers := by
  intro t ht rA s
  refine ⟨rfl, fetchFaults_of_ok ht .jmp, exec_of_invalid_register s (.head _), fun h => ?_⟩
  exact ⟨_, exec_jmp s h, toNat_zext9 _, s.setPc_frame _⟩

/-- Settles O38: past the fetch and the check of rA, E decides between the register's byte and the advance by 2. -/
theorem jeqBranchesOnEqual : Obligations.JeqBranchesOnEqual := by
  intro t ht rA s
  refine ⟨rfl, fetchFaults_of_ok ht .jeq, exec_of_invalid_register s (.head _), fun h => ?_⟩
  refine ⟨_, (Completes.jeq s h).exec_eq, ?_, s.setPc_frame _⟩
  rw [State.setPc_pc, State.isEqual]
  split
  · exact toNat_zext9 _
  · rfl

/-- Settles O39: past the fetch and the check of rA, E decides between the advance by 2 and the register's byte. -/
theorem jneBranchesOnNotEqual : Obligations.JneBranchesOnNotEqual := by
  intro t ht rA s
  refine ⟨rfl, fetchFaults_of_ok ht .jne, exec_of_invalid_register s (.head _), fun h => ?_⟩
  refine ⟨_, (Completes.jne s h).exec_eq, ?_, s.setPc_frame _⟩
  rw [State.setPc_pc, State.isEqual]
  cases s.fl.getLsbD 0
  · exact toNat_zext9 _
  · rfl

/-! ### Who reads FL (R141) -/

theorem State.taken_jeq_iff (s : State) : s.taken .jeq = true ↔ s.fl.getLsbD 0 = true := Iff.rfl

theorem State.taken_jne_iff (s : State) : s.taken .jne = true ↔ s.fl.getLsbD 0 = false :=
  Iff.of_eq (Bool.not_eq_true' s.isEqual)

/-- Only the three control transfers are ever taken. -/
theorem State.taken_eq_false (s : State) {m : Mnemonic} (hjmp : m ≠ .jmp) (hjeq : m ≠ .jeq) (hjne : m ≠ .jne) :
    s.taken m = false := by
  cases m with
  | jmp => exact absurd rfl hjmp
  | jeq => exact absurd rfl hjeq
  | jne => exact absurd rfl hjne
  | _ => rfl

theorem fetch_setFl (s : State) (f : Byte) : fetch (s.setFl f) = fetch s := by
  rw [fetch_eq, fetch_eq]
  rfl

/-- With another FL that agrees on E an instruction does the same but for FL: CMP overwrites it and every other instruction
passes it on. -/
theorem Completes.with_fl {i : Instr} {s u : State} {f : Byte} (h : Completes i s u)
    (hf : f.getLsbD 0 = s.fl.getLsbD 0) : ∃ g, Completes i (s.setFl f) (u.setFl g) := by
  have hE : (s.setFl f).isEqual = s.isEqual := hf
  cases h with
  | cmp _ ha hb => exact ⟨_, .cmp (s.setFl f) ha hb⟩
  | jeq _ h =>
    refine ⟨f, ?_⟩
    rw [← hE]
    exact .jeq (s.setFl f) h
  | jne _ h =>
    refine ⟨f, ?_⟩
    rw [← hE]
    exact .jne (s.setFl f) h
  | jmp _ h => exact ⟨f, .jmp (s.setFl f) h⟩
  | hlt => exact ⟨f, .hlt (s.setFl f)⟩
  | unknown op => exact ⟨f, .unknown op (s.setFl f)⟩
  | ldi imm8 _ h => exact ⟨f, .ldi imm8 (s.setFl f) h⟩
  | prn _ h => exact ⟨f, .prn (s.setFl f) h⟩
  | push _ h => exact ⟨f, .push (s.setFl f) h⟩
  | pop _ h => exact ⟨f, .pop (s.setFl f) h⟩
  | add _ ha hb => exact ⟨f, .add (s.setFl f) ha hb⟩
  | sub _ ha hb => exact ⟨f, .sub (s.setFl f) ha hb⟩
  | mul _ ha hb => exact ⟨f, .mul (s.setFl f) ha hb⟩

/-- `Completes.with_fl` for an execution, which may also be the register check's fault. -/
theorem exec_setFl {i : Instr} {s u : State} {f : Byte} (h : exec i s = .next u)
    (hf : f.getLsbD 0 = s.fl.getLsbD 0) : ∃ g, exec i (s.setFl f) = .next (u.setFl g) := by
  obtain hc | ⟨⟨r, hr, hge⟩, rfl⟩ := exec_cases h
  · obtain ⟨g, hsame⟩ := hc.with_fl hf
    exact ⟨g, hsame.exec_eq⟩
  · exact ⟨f, exec_of_invalid_register _ hr hge⟩

/-- A step from another FL that agrees on E takes the same way: the fetch does not read FL. -/
theorem stepWith_setFl {t : OpcodeTable} {s u : State} {f : Byte} (h : stepWith t s = .next u)
    (hf : f.getLsbD 0 = s.fl.getLsbD 0) : ∃ g, stepWith t (s.setFl f) = .next (u.setFl g) := by
  have hfetch := fetch_setFl s f
  obtain ⟨hrun, hs⟩ | ⟨hrun, hx, hs⟩ | ⟨-, _, _, -, -, hs⟩ | ⟨hrun, _, i, _, hx, hd, hs⟩ := stepWith_cases t s
  · cases hs.symm.trans h
    exact ⟨f, stepWith_of_halted t hrun⟩
  · cases hs.symm.trans h
    exact ⟨f, stepWith_of_fetch_error t hrun (hfetch.trans hx)⟩
  · cases hs.symm.trans h
  · obtain ⟨g, hsame⟩ := exec_setFl (hs.symm.trans h) hf
    exact ⟨g, (stepWith_of_decodeWith (s := s.setFl f) hrun (hfetch.trans hx) hd).trans hsame⟩

/-- Settles O40: the dispatcher's table, and `stepWith_setFl`, whose end differs from the other run's in FL alone. -/
theorem dispatcherReadsOnlyEqual : Obligations.DispatcherReadsOnlyEqual := by
  refine ⟨fun s => ⟨rfl, s.taken_jeq_iff, s.taken_jne_iff, fun _ => s.taken_eq_false⟩, fun t s u f hf h => ?_⟩
  obtain ⟨g, hstep⟩ := stepWith_setFl h hf
  exact ⟨u.setFl g, hstep, rfl⟩

end Sys2Proof.Machine
end

section
/-! SUPPORT. The ALU as arithmetic on numbers, the three instructions that write its result back, each with its frame, and
the two rules over every step: who writes FL, and that UnsupportedOperation is never recorded (spec/44_alu.md R160 to R166). -/

namespace Sys2Proof.Machine

/-! ### The ALU (R160, R161) -/

/-- The difference of two bytes is the non-negative residue of the integers' difference (R8). -/
theorem toNat_byte_sub (a b : Byte) : ((a - b).toNat : Int) = ((a.toNat : Int) - b.toNat) % 256 := by
  rw [← wrap8_sub, wrap8, BitVec.toNat_ofInt]
  exact Int.toNat_of_nonneg (Int.emod_nonneg _ (by decide))

/-- Settles O41: the ALU's bytes are the word's own operations, read as numbers; CMP's flags follow the order of the
operands. -/
theorem aluResults : Obligations.AluResults := by
  intro a b
  refine ⟨⟨_, alu_add a b, BitVec.toNat_add a b⟩, ⟨_, alu_sub a b, toNat_byte_sub a b⟩,
    ⟨_, alu_mul a b, BitVec.toNat_mul a b⟩, ⟨_, alu_cmp a b, ?_⟩, rfl⟩
  obtain hlt | heq | hgt := Nat.lt_trichotomy a.toNat b.toNat
  · rw [compareFlags_of_lt hlt, if_neg hlt.ne, if_neg hlt.not_gt]
    rfl
  · rw [compareFlags_of_eq heq, if_pos heq]
    rfl
  · rw [compareFlags_of_gt hgt, if_neg hgt.ne', if_pos hgt]
    rfl

/-! ### ADD, SUB and MUL (R162 to R165) -/

/-- Of two register operands either may be the invalid one (R85). -/
theorem exec_of_invalid_register_pair {i : Instr} {rA rB : Byte} (s : State) (hi : i.registerOperands = [rA, rB])
    (h : Config.numRegs ≤ rA.toNat ∨ Config.numRegs ≤ rB.toNat) : exec i s = .next s.afterOutOfBounds := by
  obtain ha | hb := h
  · exact exec_of_invalid_register s (hi ▸ .head _) ha
  · exact exec_of_invalid_register s (hi ▸ .tail _ (.head _)) hb

/-- Writing the ALU's result back changes the one register and pc, and nothing else. -/
theorem State.setReg_advance_frame (s : State) (i : Fin Config.numRegs) (v : Byte) :
    RegsSameBut [i] s ((s.setReg i v).advance 3) ∧ ((s.setReg i v).advance 3).pc = s.pc + 3 ∧
      ((s.setReg i v).advance 3).fl = s.fl ∧ MemSameBut [] s ((s.setReg i v).advance 3) ∧
      StatusSame s ((s.setReg i v).advance 3) :=
  ⟨regsSameBut_setReg s i v, rfl, rfl, fun _ _ => rfl, rfl, rfl, rfl⟩

/-- Settles O42: past the fetch and the check of both registers, the sum written to rA and the advance by 3. -/
theorem addWraps : Obligations.AddWraps := by
  intro t ht rA rB s
  refine ⟨rfl, fetchFaults_of_ok ht .add, exec_of_invalid_register_pair s rfl, fun ha hb => ?_⟩
  refine ⟨_, exec_add s ha hb, ?_, s.setReg_advance_frame _ _⟩
  rw [State.reg_advance, State.reg_setReg_same]
  exact BitVec.toNat_add _ _

/-- Settles O43: past the fetch and the check of both registers, the difference written to rA and the advance by 3. -/
theorem subWraps : Obligations.SubWraps := by
  intro t ht rA rB s
  refine ⟨rfl, fetchFaults_of_ok ht .sub, exec_of_invalid_register_pair s rfl, fun ha hb => ?_⟩
  refine ⟨_, exec_sub s ha hb, ?_, s.setReg_advance_frame _ _⟩
  rw [State.reg_advance, State.reg_setReg_same]
  exact toNat_byte_sub _ _

/-- Settles O44: past the fetch and the check of both registers, the product written to rA and the advance by 3. -/
theorem mulWraps : Obligations.MulWraps := by
  intro t ht rA rB s
  refine ⟨rfl, fetchFaults_of_ok ht .mul, exec_of_invalid_register_pair s rfl, fun ha hb => ?_⟩
  refine ⟨_, exec_mul s ha hb, ?_, s.setReg_advance_frame _ _⟩
  rw [State.reg_advance, State.reg_setReg_same]
  exact BitVec.toNat_mul _ _

/-! ### Over every step (R161, R166) -/

/-- Settles O22: a step leaves `err` as it was or is the precise fault, whose kind is OutOfBounds. -/
theorem unsupportedOperationNeverRecorded : Obligations.UnsupportedOperationNeverRecorded := by
  refine ⟨fun _ _ => rfl, fun t s u h hu => ?_⟩
  obtain herr | rfl := stepWith_err h
  · rw [← herr, hu]
  · cases hu

/-- Settles O47: a fault leaves FL as it was, and of the instructions that complete only CMP writes it. -/
theorem onlyCmpWritesFl : Obligations.OnlyCmpWritesFl := by
  intro t s u h hne
  obtain ⟨-, rfl⟩ | ⟨-, rfl⟩ | ⟨-, i, hbytes, hc⟩ := stepWith_next_cases h
  · exact absurd rfl hne
  · exact absurd rfl hne
  · obtain hfl | ⟨hcmp, -⟩ := hc.fl
    · exact absurd hfl hne
    · exact (hbytes.opcode_operands hcmp).1

end Sys2Proof.Machine
end

section
/-! SUPPORT. LOAD from any state: the refusal of an image over 256 bytes, and where the bytes of one that fits stand
(spec/70_reset_and_hazards.md R201). -/

namespace Sys2Proof.Machine

/-- A run of bytes written within memory stands where it was written. -/
theorem State.bytesAt_setMem_writeBytes (s : State) {a : Nat} {bytes : List Byte} (h : a + bytes.length ≤ Config.memSize) :
    BytesAt (s.setMem (s.mem.writeBytes a bytes)) a bytes :=
  fun _ hk => State.memRead_eq_ok.mpr ⟨(Nat.add_lt_add_left hk a).trans_le h, Memory.read_writeBytes_at hk⟩

/-- A written run leaves what lies outside it as it was, the bounds error at 256 and above included. -/
theorem State.memRead_setMem_writeBytes_other (s : State) {a b : Nat} {bytes : List Byte}
    (hb : b < a ∨ a + bytes.length ≤ b) : (s.setMem (s.mem.writeBytes a bytes)).memRead b = s.memRead b := by
  rw [State.memRead, State.memRead, State.setMem_mem, Memory.read_writeBytes_other hb]

/-- The length check comes first (R201). -/
theorem State.load_of_gt (s : State) {image : List Byte} (h : Config.memSize < image.length) :
    s.load image = .error .outOfBounds :=
  if_pos h

/-- Settles O9: past the length check the load is one write of the image from address 0, and only memory is set. -/
theorem loadWritesImageAtZero : Obligations.LoadWritesImageAtZero := by
  intro s image
  refine ⟨s.load_of_gt, fun hlen => ⟨_, State.load_eq_ok.mpr ⟨hlen, rfl⟩, ?_, fun a ha => ?_, ?_⟩⟩
  · exact s.bytesAt_setMem_writeBytes ((Nat.zero_add _).trans_le hlen)
  · exact s.memRead_setMem_writeBytes_other (.inr ((Nat.zero_add _).trans_le ha))
  · exact ⟨fun j _ => s.reg_setMem _ j, rfl, rfl, rfl, rfl, rfl⟩

end Sys2Proof.Machine
end
